-- ==== Sys2Proof/Word.lean ====
section
/-! DEFINITION. The word type of the machine (spec 00 R6, R11): registers, cells, immediates, instruction words and
the program counter are 32-bit patterns, and a register is named by a 5-bit field (spec 10 R21). -/

namespace Sys2Proof

/-- A 32-bit pattern; `BitVec.toInt` is `signed(v)` and `BitVec.toNat` is `unsigned(v)` of spec 00 R11 (two's
complement, log 21). -/
abbrev Word := BitVec 32

/-- A register number, 0 to 31 (spec 10 R21). -/
abbrev RegIdx := BitVec 5

end Sys2Proof
end

