-- ==== Sys2Proof/Config.lean ====
section
/-! DEFINITION. The two implementation parameters (spec 00 R7, R8); spec 00 R9 says there are no others. -/

namespace Sys2Proof

/-- The parameters fixed at construction (spec 70 R250). A state carries one (log 1), and no step changes it. -/
structure Config where
  /-- `MEM_WORDS`, the number of cells of the memory array (spec 00 R7). -/
  memWords : Nat
  /-- `HAS_MULDIV`: whether MUL and DIV exist (spec 00 R8). -/
  hasMulDiv : Bool
deriving DecidableEq, Repr

/-- The constraint of spec 00 R7: every valid index is a non-negative signed 32-bit number. -/
abbrev Config.Legal (c : Config) : Prop := c.memWords ≤ 2147483647

end Sys2Proof
end

