-- ==== Sys2Proof/Machine/Params.lean ====
section
/-! DEFINITION. The parameter values that `State.reset` carries (log 2). The spec leaves both OPEN (spec 00 R7, R8); no
statement about every state rests on these. -/

namespace Sys2Proof.Machine

/-- DESIGN CHOICE (log 2), unsafe for a claim that rests on these values: the largest memory R7 allows, and MUL and DIV
present. -/
def resetConfig : Config := { memWords := 2147483647, hasMulDiv := true }

end Sys2Proof.Machine
end

