-- ==== Sys2Proof/Syntax.lean ====
section
/-! DEFINITION. The 23 instructions of spec/opcode_table.json as decode yields them (spec 30 R97): register numbers and the
immediate of the instruction's own format, which is a 32-bit signed pattern (spec 30, section 2), never scaled (R88). -/

namespace Sys2Proof

/-- One constructor per row of the opcode table, operands in the order of the spec's syntax (spec 30 R103). -/
inductive Instr where
  /-- spec 41 R140 -/
  | add (rd rs1 rs2 : RegIdx)
  /-- spec 41 R141 -/
  | sub (rd rs1 rs2 : RegIdx)
  /-- spec 42 R145 -/
  | mul (rd rs1 rs2 : RegIdx)
  /-- spec 42 R146 -/
  | div (rd rs1 rs2 : RegIdx)
  /-- spec 43 R152 -/
  | lb (rd rs1 : RegIdx) (imm : Word)
  /-- spec 43 R151 -/
  | lh (rd rs1 : RegIdx) (imm : Word)
  /-- spec 43 R150 -/
  | lw (rd rs1 : RegIdx) (imm : Word)
  /-- spec 44 R155 -/
  | addi (rd rs1 : RegIdx) (imm : Word)
  /-- spec 44 R157 -/
  | ori (rd rs1 : RegIdx) (imm : Word)
  /-- spec 44 R156 -/
  | andi (rd rs1 : RegIdx) (imm : Word)
  /-- spec 45 R162 -/
  | sb (rs2 rs1 : RegIdx) (imm : Word)
  /-- spec 45 R161 -/
  | sh (rs2 rs1 : RegIdx) (imm : Word)
  /-- spec 45 R160 -/
  | sw (rs2 rs1 : RegIdx) (imm : Word)
  /-- spec 46 R165 -/
  | lui (rd : RegIdx) (imm : Word)
  /-- spec 46 R166 -/
  | auipc (rd : RegIdx) (imm : Word)
  /-- spec 47 R170 -/
  | jal (rd : RegIdx) (imm : Word)
  /-- spec 47 R171 -/
  | jalr (rd rs1 : RegIdx) (imm : Word)
  /-- spec 48 R180 -/
  | beq (rs1 rs2 : RegIdx) (imm : Word)
  /-- spec 48 R181 -/
  | bne (rs1 rs2 : RegIdx) (imm : Word)
  /-- spec 48 R182 -/
  | blt (rs1 rs2 : RegIdx) (imm : Word)
  /-- spec 48 R183 -/
  | bge (rs1 rs2 : RegIdx) (imm : Word)
  /-- spec 48 R184 -/
  | bltu (rs1 rs2 : RegIdx) (imm : Word)
  /-- spec 48 R185 -/
  | bgeu (rs1 rs2 : RegIdx) (imm : Word)
deriving DecidableEq, Repr

/-- The field a decode fault reports (spec 60 R221). -/
inductive DecodeField where
  | opcode
  | funct7
  | funct3
deriving DecidableEq, Repr

/-- The payload of `DecodeFault(field, value)`: the offending field and its unsigned value (spec 60 R221). -/
structure DecodeFault where
  field : DecodeField
  value : Nat
deriving DecidableEq, Repr

/-- MUL and DIV exist only when `HAS_MULDIV` is true (spec 00 R8, spec 42 R147); the other 21 always do (spec 00 R2). -/
def Instr.present (hasMulDiv : Bool) : Instr → Bool
  | .mul _ _ _ => hasMulDiv
  | .div _ _ _ => hasMulDiv
  | .add _ _ _ => true
  | .sub _ _ _ => true
  | .lb _ _ _ => true
  | .lh _ _ _ => true
  | .lw _ _ _ => true
  | .addi _ _ _ => true
  | .ori _ _ _ => true
  | .andi _ _ _ => true
  | .sb _ _ _ => true
  | .sh _ _ _ => true
  | .sw _ _ _ => true
  | .lui _ _ => true
  | .auipc _ _ => true
  | .jal _ _ => true
  | .jalr _ _ _ => true
  | .beq _ _ _ => true
  | .bne _ _ _ => true
  | .blt _ _ _ => true
  | .bge _ _ _ => true
  | .bltu _ _ _ => true
  | .bgeu _ _ _ => true

/-- The register an instruction writes: `rd` for the forms that have one, none for stores and branches (spec 10 R26). -/
def Instr.dest : Instr → Option RegIdx
  | .add rd _ _ => some rd
  | .sub rd _ _ => some rd
  | .mul rd _ _ => some rd
  | .div rd _ _ => some rd
  | .lb rd _ _ => some rd
  | .lh rd _ _ => some rd
  | .lw rd _ _ => some rd
  | .addi rd _ _ => some rd
  | .ori rd _ _ => some rd
  | .andi rd _ _ => some rd
  | .sb _ _ _ => none
  | .sh _ _ _ => none
  | .sw _ _ _ => none
  | .lui rd _ => some rd
  | .auipc rd _ => some rd
  | .jal rd _ => some rd
  | .jalr rd _ _ => some rd
  | .beq _ _ _ => none
  | .bne _ _ _ => none
  | .blt _ _ _ => none
  | .bge _ _ _ => none
  | .bltu _ _ _ => none
  | .bgeu _ _ _ => none

/-- The registers an instruction reads: `rs1`, `rs2`, or none (spec 10 R26). -/
def Instr.sources : Instr → List RegIdx
  | .add _ rs1 rs2 => [rs1, rs2]
  | .sub _ rs1 rs2 => [rs1, rs2]
  | .mul _ rs1 rs2 => [rs1, rs2]
  | .div _ rs1 rs2 => [rs1, rs2]
  | .lb _ rs1 _ => [rs1]
  | .lh _ rs1 _ => [rs1]
  | .lw _ rs1 _ => [rs1]
  | .addi _ rs1 _ => [rs1]
  | .ori _ rs1 _ => [rs1]
  | .andi _ rs1 _ => [rs1]
  | .sb rs2 rs1 _ => [rs1, rs2]
  | .sh rs2 rs1 _ => [rs1, rs2]
  | .sw rs2 rs1 _ => [rs1, rs2]
  | .lui _ _ => []
  | .auipc _ _ => []
  | .jal _ _ => []
  | .jalr _ rs1 _ => [rs1]
  | .beq rs1 rs2 _ => [rs1, rs2]
  | .bne rs1 rs2 _ => [rs1, rs2]
  | .blt rs1 rs2 _ => [rs1, rs2]
  | .bge rs1 rs2 _ => [rs1, rs2]
  | .bltu rs1 rs2 _ => [rs1, rs2]
  | .bgeu rs1 rs2 _ => [rs1, rs2]

end Sys2Proof
end

