-- ==== Sys2Proof/Machine/State.lean ====
section
/-! DEFINITION. The state of the machine (spec 10 R20): the register file, `pc`, `instructionCount`, the memory array and
`status`, with the configuration (log 1) and the record of the load (log 27) beside them; its reset (spec 10 R38, spec 70 R250); the reasons a step or a host
operation can stop. -/

namespace Sys2Proof.Machine

/-- The two fatal faults of the hardware (spec 60 R220 to R222). Taking one is a next state whose `status` records it
(spec 60 R223), so neither is a stop of the model. -/
inductive HwFault where
  /-- `DecodeFault(field, value)` (spec 60 R221). -/
  | decode (payload : DecodeFault)
  /-- `ArithmeticFault`, raised by DIV on a zero divisor (spec 60 R222). -/
  | arithmetic
deriving DecidableEq, Repr

/-- The run status (spec 10 R32). -/
inductive Status where
  /-- Reset done, no run started. -/
  | idle
  /-- Inside `execute()`. -/
  | running
  /-- The run ended because `pc` reached the bound (spec 40 R122). -/
  | halted
  /-- The run ended on a fault (spec 60 R223). -/
  | faulted (fault : HwFault)
deriving DecidableEq, Repr

/-- The memory array (spec 10 R33), a list of cell indexes and 32-bit cells: the cells that differ from what an unlisted
cell reads as, indexes strictly rising. A cell is never split into bytes (spec 20 R56, log 3). -/
abbrev Memory := List (Nat × Word)

/-- Everything the spec gives the machine (spec 10 R20), its configuration, and whether the host has loaded a program. -/
structure State where
  /-- The 32 general registers; slot 0 is never read (spec 10 R22, log 20). -/
  regs : Vector Word 32
  /-- The program counter, a signed word index (spec 10 R27). -/
  pc : Word
  /-- The exclusive upper bound on `pc`, a signed 32-bit value (spec 10 R30). -/
  instructionCount : Word
  /-- The memory array (spec 10 R33). -/
  mem : Memory
  /-- The run status (spec 10 R32). -/
  status : Status
  /-- The parameters `MEM_WORDS` and `HAS_MULDIV`: configuration carried along, never changed (spec 10 R20, log 1). -/
  config : Config
  /-- Whether `loadInstructionsMemory` has been done since reset, which spec 50 R209 allows once: the model's own record, read
  and written by the host's load alone, never by an instruction (log 27). -/
  loaded : Bool
deriving DecidableEq, Repr

/-- Why the model stops where the hardware's behaviour is undefined. -/
inductive Fault where
  /-- An access to a word index outside `[0, MEM_WORDS)`, with that signed index. Raised by instruction fetch, by the loads
  and by the stores. It is no fault of the hardware, whose behaviour there is undefined (spec 20 R55, spec 60 R229). Safe:
  the model stops where the hardware goes on undefined (log 4). -/
  | outOfRange (index : Int)
deriving DecidableEq, Repr

/-- Why the model gives no meaning. No instruction and no step answers with any of these but the first, which stands for an
instruction that has no meaning yet (there is none such). -/
inductive Refusal where
  /-- An instruction of the opcode table that has no meaning yet; raised by `exec`'s arm. Safe. -/
  | notModelled (mnemonic : String)
  /-- A host register access with an index outside 0 .. 31 (spec 50 R208); raised by the host's register operations. Safe.
  The index is a natural number by the model's choice (log 28). -/
  | hostRegisterIndex (index : Nat)
  /-- A host memory access outside `[0, MEM_WORDS)` (spec 50 R208); raised by the host's memory operations. Safe.
  The address is a natural number by the model's choice (log 28). -/
  | hostAddress (address : Nat)
  /-- A program longer than the memory array (spec 50 R201, R208); raised by `hostLoad`. Safe. -/
  | hostProgramTooLong (words : Nat)
  /-- A host operation during a run (spec 50 R207); raised by every host operation but reset and the two status reads
  (log 29). Safe as the source excludes such an access by construction (log 15). -/
  | hostWhileRunning
  /-- A load or an `execute()` after a run, or a second load (spec 50 R209); raised by `hostLoad` and `hostStart`. Safe. -/
  | hostOncePerReset
deriving DecidableEq, Repr

/-- The state right after reset with configuration `c` (spec 10 R38, spec 70 R250): all registers and cells zero, `pc` 0,
`instructionCount` 0, `status` idle (the last two the spec's own choice, log 11), no program loaded (log 27). -/
def State.resetWith (c : Config) : State :=
  { regs := Vector.replicate 32 0#32
    pc := 0#32
    instructionCount := 0#32
    mem := []
    status := .idle
    config := c
    loaded := false }

/-- The machine right after reset, its OPEN parameters as log 2 says. -/
def State.reset : State := State.resetWith resetConfig

end Sys2Proof.Machine
end

