-- ==== Sys2Proof/Machine/Flags.lean ====
section
/-! DEFINITION. The machine has no flags (spec 10 R34): branches compare two registers directly. This file holds those
comparisons (spec 00 R13) and the termination test. -/

namespace Sys2Proof.Machine

/-- `a == b`: the 32 bits compared. -/
def condEq (a b : Word) : Bool := decide (a = b)

/-- `a <s b`: `signed(a)` with `signed(b)`. -/
def condLtSigned (a b : Word) : Bool := decide (a.toInt < b.toInt)

/-- `a <u b`: `unsigned(a)` with `unsigned(b)`. -/
def condLtUnsigned (a b : Word) : Bool := decide (a.toNat < b.toNat)

/-- The loop test `pc <s instructionCount` (spec 40 R122). -/
def fetchAllowed (s : State) : Bool := condLtSigned s.pc s.instructionCount

end Sys2Proof.Machine
end

