-- ==== Sys2Proof/WellFormed.lean ====
section
/-! DEFINITION. Which instructions an encoding can hold: the immediate lies in the range its format can spell
(spec 30 R83 to R87, R103). Register numbers need no check: each is a 5-bit field (spec 10 R21). -/

namespace Sys2Proof

/-- The range of `imm_I` and `imm_S`: -2048 .. 2047 (spec 30 R83, R84). -/
def fitsImm12 (imm : Word) : Bool :=
  decide (-2048 ≤ imm.toInt) && decide (imm.toInt ≤ 2047)

/-- The range of `imm_B`: even, -4096 .. 4094 (spec 30 R85). -/
def fitsImmB (imm : Word) : Bool :=
  decide (-4096 ≤ imm.toInt) && decide (imm.toInt ≤ 4094) && decide (imm.toInt % 2 = 0)

/-- The form of `imm_U`: the low 12 bits are zero (spec 30 R86). -/
def fitsImmU (imm : Word) : Bool :=
  decide (imm.toNat % 4096 = 0)

/-- The range of `imm_J`: even, -1048576 .. 1048574 (spec 30 R87). -/
def fitsImmJ (imm : Word) : Bool :=
  decide (-1048576 ≤ imm.toInt) && decide (imm.toInt ≤ 1048574) && decide (imm.toInt % 2 = 0)

/-- An instruction some word can spell. -/
def Instr.wellFormed : Instr → Bool
  | .add _ _ _ => true
  | .sub _ _ _ => true
  | .mul _ _ _ => true
  | .div _ _ _ => true
  | .lb _ _ imm => fitsImm12 imm
  | .lh _ _ imm => fitsImm12 imm
  | .lw _ _ imm => fitsImm12 imm
  | .addi _ _ imm => fitsImm12 imm
  | .ori _ _ imm => fitsImm12 imm
  | .andi _ _ imm => fitsImm12 imm
  | .sb _ _ imm => fitsImm12 imm
  | .sh _ _ imm => fitsImm12 imm
  | .sw _ _ imm => fitsImm12 imm
  | .lui _ imm => fitsImmU imm
  | .auipc _ imm => fitsImmU imm
  | .jal _ imm => fitsImmJ imm
  | .jalr _ _ imm => fitsImm12 imm
  | .beq _ _ imm => fitsImmB imm
  | .bne _ _ imm => fitsImmB imm
  | .blt _ _ imm => fitsImmB imm
  | .bge _ _ imm => fitsImmB imm
  | .bltu _ _ imm => fitsImmB imm
  | .bgeu _ _ imm => fitsImmB imm

end Sys2Proof
end

