-- ==== Sys2Proof/Decode.lean ====
section
/-! DEFINITION. The decoder and the encoder (spec 30). `decode` is total on all 2^32 words and rejects by the name of the
offending field (R97, R98). The numeric selector values are the standard RISC-V ones (log 5). -/

namespace Sys2Proof

/-! Extension operators (spec 00 R12). -/

/-- `sext_N(v)`: the low `n` bits of `v`, bit `n - 1` copied upward. -/
def sext (n : Nat) (v : Word) : Word := (v.setWidth n).signExtend 32

/-- `zext_N(v)`: the low `n` bits of `v`, zeros above. -/
def zext (n : Nat) (v : Word) : Word := (v.setWidth n).setWidth 32

/-! Field extraction (spec 30 R81): `w.extractLsb' lo n` is `w[lo + n - 1 : lo]`. -/

/-- `w[6:0]` -/
def opcodeOf (w : Word) : BitVec 7 := w.extractLsb' 0 7

/-- `w[11:7]` -/
def rdOf (w : Word) : RegIdx := w.extractLsb' 7 5

/-- `w[14:12]` -/
def funct3Of (w : Word) : BitVec 3 := w.extractLsb' 12 3

/-- `w[19:15]` -/
def rs1Of (w : Word) : RegIdx := w.extractLsb' 15 5

/-- `w[24:20]` -/
def rs2Of (w : Word) : RegIdx := w.extractLsb' 20 5

/-- `w[31:25]` -/
def funct7Of (w : Word) : BitVec 7 := w.extractLsb' 25 7

/-! Immediates (spec 30 R83 to R87), each a 32-bit signed pattern. -/

/-- `imm_I = sext_12(w[31:20])` (spec 30 R83). -/
def immI (w : Word) : Word := (w.extractLsb' 20 12).signExtend 32

/-- `imm_S = sext_12(w[31:25] ++ w[11:7])` (spec 30 R84, log 12). -/
def immS (w : Word) : Word := (w.extractLsb' 25 7 ++ w.extractLsb' 7 5 : BitVec 12).signExtend 32

/-- `imm_B = sext_13(w[31] ++ w[7] ++ w[30:25] ++ w[11:8] ++ 0b0)` (spec 30 R85). -/
def immB (w : Word) : Word :=
  (w.extractLsb' 31 1 ++ w.extractLsb' 7 1 ++ w.extractLsb' 25 6 ++ w.extractLsb' 8 4 ++ 0#1 : BitVec 13).signExtend 32

/-- `imm_U = w[31:12] ++ 0^12` (spec 30 R86). -/
def immU (w : Word) : Word := w.extractLsb' 12 20 ++ 0#12

/-- `imm_J = sext_21(w[31] ++ w[19:12] ++ w[20] ++ w[30:21] ++ 0b0)` (spec 30 R87). -/
def immJ (w : Word) : Word :=
  (w.extractLsb' 31 1 ++ w.extractLsb' 12 8 ++ w.extractLsb' 20 1 ++ w.extractLsb' 21 10 ++ 0#1 : BitVec 21).signExtend 32

/-! The decode of each class, its selectors tested in the spec's order (log 7). -/

/-- `raise DecodeFault(opcode, w[6:0])` -/
def opcodeFault (w : Word) : Except DecodeFault Instr := .error ⟨.opcode, (opcodeOf w).toNat⟩

/-- `raise DecodeFault(funct7, funct7)` -/
def funct7Fault (w : Word) : Except DecodeFault Instr := .error ⟨.funct7, (funct7Of w).toNat⟩

/-- `raise DecodeFault(funct3, funct3)` -/
def funct3Fault (w : Word) : Except DecodeFault Instr := .error ⟨.funct3, (funct3Of w).toNat⟩

/-- The OP class (spec 30 R90): `funct7` first, then `funct3`; ADD and SUB require `funct3 = 0b000` (log 6). -/
def decodeOp (hasMulDiv : Bool) (w : Word) : Except DecodeFault Instr :=
  if funct7Of w = 0b0000000#7 then
    if funct3Of w = 0b000#3 then .ok (.add (rdOf w) (rs1Of w) (rs2Of w)) else funct3Fault w
  else if funct7Of w = 0b0100000#7 then
    if funct3Of w = 0b000#3 then .ok (.sub (rdOf w) (rs1Of w) (rs2Of w)) else funct3Fault w
  else if funct7Of w = 0b0000001#7 ∧ hasMulDiv = true then
    if funct3Of w = 0b000#3 then .ok (.mul (rdOf w) (rs1Of w) (rs2Of w))
    else if funct3Of w = 0b100#3 then .ok (.div (rdOf w) (rs1Of w) (rs2Of w))
    else funct3Fault w
  else funct7Fault w

/-- The LOAD class (spec 30 R91). -/
def decodeLoad (w : Word) : Except DecodeFault Instr :=
  if funct3Of w = 0b000#3 then .ok (.lb (rdOf w) (rs1Of w) (immI w))
  else if funct3Of w = 0b001#3 then .ok (.lh (rdOf w) (rs1Of w) (immI w))
  else if funct3Of w = 0b010#3 then .ok (.lw (rdOf w) (rs1Of w) (immI w))
  else funct3Fault w

/-- The OP-IMM class (spec 30 R92). -/
def decodeOpImm (w : Word) : Except DecodeFault Instr :=
  if funct3Of w = 0b000#3 then .ok (.addi (rdOf w) (rs1Of w) (immI w))
  else if funct3Of w = 0b110#3 then .ok (.ori (rdOf w) (rs1Of w) (immI w))
  else if funct3Of w = 0b111#3 then .ok (.andi (rdOf w) (rs1Of w) (immI w))
  else funct3Fault w

/-- The STORE class (spec 30 R93). -/
def decodeStore (w : Word) : Except DecodeFault Instr :=
  if funct3Of w = 0b000#3 then .ok (.sb (rs2Of w) (rs1Of w) (immS w))
  else if funct3Of w = 0b001#3 then .ok (.sh (rs2Of w) (rs1Of w) (immS w))
  else if funct3Of w = 0b010#3 then .ok (.sw (rs2Of w) (rs1Of w) (immS w))
  else funct3Fault w

/-- JALR requires `funct3 = 0b000` (spec 30 R95, log 6). -/
def decodeJalr (w : Word) : Except DecodeFault Instr :=
  if funct3Of w = 0b000#3 then .ok (.jalr (rdOf w) (rs1Of w) (immI w)) else funct3Fault w

/-- The BRANCH class (spec 30 R96). -/
def decodeBranch (w : Word) : Except DecodeFault Instr :=
  if funct3Of w = 0b000#3 then .ok (.beq (rs1Of w) (rs2Of w) (immB w))
  else if funct3Of w = 0b001#3 then .ok (.bne (rs1Of w) (rs2Of w) (immB w))
  else if funct3Of w = 0b100#3 then .ok (.blt (rs1Of w) (rs2Of w) (immB w))
  else if funct3Of w = 0b101#3 then .ok (.bge (rs1Of w) (rs2Of w) (immB w))
  else if funct3Of w = 0b110#3 then .ok (.bltu (rs1Of w) (rs2Of w) (immB w))
  else if funct3Of w = 0b111#3 then .ok (.bgeu (rs1Of w) (rs2Of w) (immB w))
  else funct3Fault w

/-- The decode function (spec 30 R97), a function of the word and of `HAS_MULDIV` alone (spec 40 R124): the `opcode` is
tested first, and an unrecognised one is reported without looking further. -/
def decode (hasMulDiv : Bool) (w : Word) : Except DecodeFault Instr :=
  if opcodeOf w = 0b0110011#7 then decodeOp hasMulDiv w
  else if opcodeOf w = 0b0000011#7 then decodeLoad w
  else if opcodeOf w = 0b0010011#7 then decodeOpImm w
  else if opcodeOf w = 0b0100011#7 then decodeStore w
  else if opcodeOf w = 0b0110111#7 then .ok (.lui (rdOf w) (immU w))
  else if opcodeOf w = 0b0010111#7 then .ok (.auipc (rdOf w) (immU w))
  else if opcodeOf w = 0b1101111#7 then .ok (.jal (rdOf w) (immJ w))
  else if opcodeOf w = 0b1100111#7 then decodeJalr w
  else if opcodeOf w = 0b1100011#7 then decodeBranch w
  else opcodeFault w

/-! The encoder, from the format table of spec 30 R82: a format's fields, most significant first. -/

/-- The R row: `funct7 rs2 rs1 funct3 rd opcode`. -/
def formatR (funct7 : BitVec 7) (rs2 rs1 : RegIdx) (funct3 : BitVec 3) (rd : RegIdx) (opcode : BitVec 7) : Word :=
  funct7 ++ rs2 ++ rs1 ++ funct3 ++ rd ++ opcode

/-- The I row: `imm[11:0] rs1 funct3 rd opcode`. -/
def formatI (imm : BitVec 12) (rs1 : RegIdx) (funct3 : BitVec 3) (rd : RegIdx) (opcode : BitVec 7) : Word :=
  imm ++ rs1 ++ funct3 ++ rd ++ opcode

/-- The S row: `imm[11:5] rs2 rs1 funct3 imm[4:0] opcode`. -/
def formatS (imm : BitVec 12) (rs2 rs1 : RegIdx) (funct3 : BitVec 3) (opcode : BitVec 7) : Word :=
  imm.extractLsb' 5 7 ++ rs2 ++ rs1 ++ funct3 ++ imm.extractLsb' 0 5 ++ opcode

/-- The B row: `imm[12] imm[10:5] rs2 rs1 funct3 imm[4:1] imm[11] opcode`. -/
def formatB (imm : BitVec 13) (rs2 rs1 : RegIdx) (funct3 : BitVec 3) (opcode : BitVec 7) : Word :=
  imm.extractLsb' 12 1 ++ imm.extractLsb' 5 6 ++ rs2 ++ rs1 ++ funct3 ++ imm.extractLsb' 1 4 ++ imm.extractLsb' 11 1
    ++ opcode

/-- The U row: `imm[31:12] rd opcode`, the argument being the field `w[31:12]`. -/
def formatU (imm20 : BitVec 20) (rd : RegIdx) (opcode : BitVec 7) : Word :=
  imm20 ++ rd ++ opcode

/-- The J row: `imm[20] imm[10:1] imm[11] imm[19:12] rd opcode`. -/
def formatJ (imm : BitVec 21) (rd : RegIdx) (opcode : BitVec 7) : Word :=
  imm.extractLsb' 20 1 ++ imm.extractLsb' 1 10 ++ imm.extractLsb' 11 1 ++ imm.extractLsb' 12 8 ++ rd ++ opcode

/-- The word of an instruction (spec 30 R82, R89 to R96); of an immediate, the bits its format has. -/
def encode : Instr → Word
  | .add rd rs1 rs2 => formatR 0b0000000#7 rs2 rs1 0b000#3 rd 0b0110011#7
  | .sub rd rs1 rs2 => formatR 0b0100000#7 rs2 rs1 0b000#3 rd 0b0110011#7
  | .mul rd rs1 rs2 => formatR 0b0000001#7 rs2 rs1 0b000#3 rd 0b0110011#7
  | .div rd rs1 rs2 => formatR 0b0000001#7 rs2 rs1 0b100#3 rd 0b0110011#7
  | .lb rd rs1 imm => formatI (imm.setWidth 12) rs1 0b000#3 rd 0b0000011#7
  | .lh rd rs1 imm => formatI (imm.setWidth 12) rs1 0b001#3 rd 0b0000011#7
  | .lw rd rs1 imm => formatI (imm.setWidth 12) rs1 0b010#3 rd 0b0000011#7
  | .addi rd rs1 imm => formatI (imm.setWidth 12) rs1 0b000#3 rd 0b0010011#7
  | .ori rd rs1 imm => formatI (imm.setWidth 12) rs1 0b110#3 rd 0b0010011#7
  | .andi rd rs1 imm => formatI (imm.setWidth 12) rs1 0b111#3 rd 0b0010011#7
  | .sb rs2 rs1 imm => formatS (imm.setWidth 12) rs2 rs1 0b000#3 0b0100011#7
  | .sh rs2 rs1 imm => formatS (imm.setWidth 12) rs2 rs1 0b001#3 0b0100011#7
  | .sw rs2 rs1 imm => formatS (imm.setWidth 12) rs2 rs1 0b010#3 0b0100011#7
  | .lui rd imm => formatU (imm.extractLsb' 12 20) rd 0b0110111#7
  | .auipc rd imm => formatU (imm.extractLsb' 12 20) rd 0b0010111#7
  | .jal rd imm => formatJ (imm.setWidth 21) rd 0b1101111#7
  | .jalr rd rs1 imm => formatI (imm.setWidth 12) rs1 0b000#3 rd 0b1100111#7
  | .beq rs1 rs2 imm => formatB (imm.setWidth 13) rs2 rs1 0b000#3 0b1100011#7
  | .bne rs1 rs2 imm => formatB (imm.setWidth 13) rs2 rs1 0b001#3 0b1100011#7
  | .blt rs1 rs2 imm => formatB (imm.setWidth 13) rs2 rs1 0b100#3 0b1100011#7
  | .bge rs1 rs2 imm => formatB (imm.setWidth 13) rs2 rs1 0b101#3 0b1100011#7
  | .bltu rs1 rs2 imm => formatB (imm.setWidth 13) rs2 rs1 0b110#3 0b1100011#7
  | .bgeu rs1 rs2 imm => formatB (imm.setWidth 13) rs2 rs1 0b111#3 0b1100011#7

/-- The 32-bit word whose low `nbits` bits are those of `w` and whose other bits are zero: an opcode-table word laid in one
cell (spec 30 R80). -/
def tableWord (nbits w : Nat) : Word := BitVec.ofNat 32 (w % 2 ^ nbits)

/-- What the decoder reads from an opcode-table word; `HAS_MULDIV` is taken as true, since the table lists MUL and DIV
(log 2). -/
def decodeTableWord (nbits w : Nat) : Option Instr :=
  match decode true (tableWord nbits w) with
  | .ok i => some i
  | .error _ => none

end Sys2Proof
end

