-- ==== Sys2Proof/Machine/Ops.lean ====
section
/-! DEFINITION. The named operations over registers, memory, `pc` and `status`; taking a fault (spec 60 R223). -/

namespace Sys2Proof.Machine

/-! One update per field of the state. -/

/-- `pc <- p`. -/
def State.setPc (s : State) (p : Word) : State := { s with pc := p }

/-- `status <- st`. -/
def State.setStatus (s : State) (st : Status) : State := { s with status := st }

/-- `instructionCount <- n`; only the host's load and reset write it (spec 10 R30). -/
def State.setCount (s : State) (n : Word) : State := { s with instructionCount := n }

/-- The record that the host has loaded a program; only the host's load and reset write it (spec 50 R209, log 27). -/
def State.setLoaded (s : State) (b : Bool) : State := { s with loaded := b }

/-! General registers (spec 10 R22 to R24). -/

/-- `x[i]`: register 0 reads as zero whatever was written before (spec 10 R22). -/
def State.readReg (s : State) (i : RegIdx) : Word :=
  if i = 0#5 then 0#32 else s.regs[i.toNat]'i.isLt

/-- `x[i] <- v`: a write to register 0 is accepted and has no effect (spec 10 R23). -/
def State.writeReg (s : State) (i : RegIdx) (v : Word) : State :=
  if i = 0#5 then s else { s with regs := s.regs.set i.toNat v i.isLt }

/-! The memory array (spec 20). -/

/-- What a cell that is not listed reads as: the reset contents, zero (spec 10 R33, R38). -/
def unlistedCell : Word := 0#32

/-- The canonical form: indexes strictly rising, no entry equal to what an unlisted cell reads as. -/
abbrev Memory.wf (m : Memory) : Prop :=
  m.Pairwise (fun c d => c.1 < d.1) ∧ ∀ c ∈ m, c.2 ≠ unlistedCell

/-- The cell `mem[a]`. -/
def cellAt : Memory → Nat → Word
  | [], _ => unlistedCell
  | (b, v) :: m, a => if b = a then v else cellAt m a

/-- A list entry put at its place in the rising order. -/
def insertCell : Memory → Nat → Word → Memory
  | [], a, v => [(a, v)]
  | (b, w) :: m, a, v => if a < b then (a, v) :: (b, w) :: m else (b, w) :: insertCell m a v

/-- `mem[a] <- v`, the whole cell, keeping the canonical form. -/
def putCell (m : Memory) (a : Nat) (v : Word) : Memory :=
  let rest := m.filter (fun c => c.1 ≠ a)
  if v = unlistedCell then rest else insertCell rest a v

/-- `mem <- m`. -/
def State.setMem (s : State) (m : Memory) : State := { s with mem := m }

/-- The cell a word index names: `signed(addr)` if it lies in `[0, MEM_WORDS)` (spec 20 R51), none otherwise. -/
def State.cellIndex (s : State) (addr : Word) : Option Nat :=
  if 0 ≤ addr.toInt ∧ addr.toInt < (s.config.memWords : Int) then some addr.toInt.toNat else none

/-- The `n` of `MemRead` and `MemWrite`: one of 32, 16, 8 (spec 20 R52). -/
inductive Width where
  | word
  | half
  | byte
deriving DecidableEq, Repr

/-- The number of low-order bits an access of this width keeps. -/
def Width.bits : Width → Nat
  | .word => 32
  | .half => 16
  | .byte => 8

/-- `MemRead(addr, n)`: the low `n` bits of the cell, as a 32-bit pattern with zeros above (spec 20 R52); outside the array
the model's own stop (spec 20 R55, log 4). -/
def State.memRead (s : State) (addr : Word) (n : Width) : Except Fault Word :=
  match s.cellIndex addr with
  | some a => .ok (zext n.bits (cellAt s.mem a))
  | none => .error (.outOfRange addr.toInt)

/-- `MemWrite(addr, n, v)`: the whole cell becomes `zext_n(v)` (spec 20 R53); outside the array the model's own stop. -/
def State.memWrite (s : State) (addr : Word) (n : Width) (v : Word) : Except Fault State :=
  match s.cellIndex addr with
  | some a => .ok (s.setMem (putCell s.mem a (zext n.bits v)))
  | none => .error (.outOfRange addr.toInt)

/-- Fetch: `MemRead(pc, 32)` (spec 20 R67, spec 40 R123). -/
def State.fetch (s : State) : Except Fault Word := s.memRead s.pc .word

/-! The end of a step. -/

/-- The Advance state's increment, `pc <- pc + 1` (spec 40 R127). -/
def State.advance (s : State) : State := s.setPc (s.pc + 1#32)

/-- Taking a fault (spec 60 R223): `status <- Faulted(f)` and nothing else; `pc` stays at the faulting instruction, there is
no handler, no saved register and no mode (spec 60 R226). -/
def State.raise (s : State) (f : HwFault) : State := s.setStatus (.faulted f)

/-- Normal termination: `status <- Halted` and nothing else (spec 40 R122). The fault's counterpart; there is no return
from a fault (spec 60 R227). -/
def State.halt (s : State) : State := s.setStatus .halted

end Sys2Proof.Machine
end

