-- ==== Sys2Proof/Machine/Operands.lean ====
section
/-! DEFINITION. Operand forms and the shapes the instructions share. Every register operand denotes the value the register
held before the instruction began (spec 40 R125, log 13). -/

namespace Sys2Proof.Machine

/-- The effective address `x[rs1] + imm`, a word index, unscaled, the sum wrapping (spec 20 R54, log 8). -/
def effectiveAddress (s : State) (rs1 : RegIdx) (imm : Word) : Word := s.readReg rs1 + imm

/-- The link value: the word index after the jump (spec 47 R170). -/
def linkAddress (s : State) : Word := s.pc + 1#32

/-- A target relative to the executing instruction, unscaled, wrapping (spec 30 R88, spec 10 R31). -/
def relativeTarget (s : State) (imm : Word) : Word := s.pc + imm

/-- `x[rd] <- v; pc <- pc + 1`: the end of every instruction that computes a register. -/
def writeAndAdvance (rd : RegIdx) (v : Word) (s : State) : Host.Outcome State Fault Refusal :=
  .next (s.writeReg rd v).advance

/-- `ea <- x[rs1] + imm; x[rd] <- sext_n(MemRead(ea, n)); pc <- pc + 1` (spec 43 R153). -/
def loadSigned (n : Width) (rd rs1 : RegIdx) (imm : Word) (s : State) : Host.Outcome State Fault Refusal :=
  match s.memRead (effectiveAddress s rs1 imm) n with
  | .ok v => writeAndAdvance rd (sext n.bits v) s
  | .error f => .fault f

/-- `ea <- x[rs1] + imm; MemWrite(ea, n, x[rs2]); pc <- pc + 1` (spec 45 R163). -/
def storeLow (n : Width) (rs2 rs1 : RegIdx) (imm : Word) (s : State) : Host.Outcome State Fault Refusal :=
  match s.memWrite (effectiveAddress s rs1 imm) n (s.readReg rs2) with
  | .ok t => .next t.advance
  | .error f => .fault f

/-- `x[rd] <- pc + 1; pc <- target`, the target computed before the link is written (spec 47). -/
def linkAndJump (rd : RegIdx) (target : Word) (s : State) : Host.Outcome State Fault Refusal :=
  .next ((s.writeReg rd (linkAddress s)).setPc target)

/-- `pc <- pc + imm` when the condition holds, `pc <- pc + 1` when not (spec 48 R186). -/
def branchIf (taken : Bool) (imm : Word) (s : State) : Host.Outcome State Fault Refusal :=
  .next (s.setPc (if taken then relativeTarget s imm else s.pc + 1#32))

end Sys2Proof.Machine
end

