-- ==== Sys2Proof/Machine/Branches.lean ====
section
/-! DEFINITION. The six conditional branches (spec 48); each sets `pc` exactly once (R186). -/

namespace Sys2Proof.Machine

/-- BEQ (spec 48 R180). -/
def execBeq (rs1 rs2 : RegIdx) (imm : Word) (s : State) : Host.Outcome State Fault Refusal :=
  branchIf (condEq (s.readReg rs1) (s.readReg rs2)) imm s

/-- BNE (spec 48 R181). -/
def execBne (rs1 rs2 : RegIdx) (imm : Word) (s : State) : Host.Outcome State Fault Refusal :=
  branchIf (!condEq (s.readReg rs1) (s.readReg rs2)) imm s

/-- BLT (spec 48 R182). -/
def execBlt (rs1 rs2 : RegIdx) (imm : Word) (s : State) : Host.Outcome State Fault Refusal :=
  branchIf (condLtSigned (s.readReg rs1) (s.readReg rs2)) imm s

/-- BGE (spec 48 R183). -/
def execBge (rs1 rs2 : RegIdx) (imm : Word) (s : State) : Host.Outcome State Fault Refusal :=
  branchIf (!condLtSigned (s.readReg rs1) (s.readReg rs2)) imm s

/-- BLTU (spec 48 R184). -/
def execBltu (rs1 rs2 : RegIdx) (imm : Word) (s : State) : Host.Outcome State Fault Refusal :=
  branchIf (condLtUnsigned (s.readReg rs1) (s.readReg rs2)) imm s

/-- BGEU (spec 48 R185). -/
def execBgeu (rs1 rs2 : RegIdx) (imm : Word) (s : State) : Host.Outcome State Fault Refusal :=
  branchIf (!condLtUnsigned (s.readReg rs1) (s.readReg rs2)) imm s

end Sys2Proof.Machine
end

