-- ==== Sys2Proof/Machine/IntegerImmediate.lean ====
section
/-! DEFINITION. ADDI, ANDI, ORI (spec 44); the immediate is sign-extended for all three. -/

namespace Sys2Proof.Machine

/-- ADDI (spec 44 R155). -/
def execAddi (rd rs1 : RegIdx) (imm : Word) (s : State) : Host.Outcome State Fault Refusal :=
  writeAndAdvance rd (s.readReg rs1 + imm) s

/-- ANDI (spec 44 R156). -/
def execAndi (rd rs1 : RegIdx) (imm : Word) (s : State) : Host.Outcome State Fault Refusal :=
  writeAndAdvance rd (s.readReg rs1 &&& imm) s

/-- ORI (spec 44 R157). -/
def execOri (rd rs1 : RegIdx) (imm : Word) (s : State) : Host.Outcome State Fault Refusal :=
  writeAndAdvance rd (s.readReg rs1 ||| imm) s

end Sys2Proof.Machine
end

