-- ==== Sys2Proof/Machine/IntegerRegister.lean ====
section
/-! DEFINITION. ADD and SUB (spec 41). The results wrap modulo 2^32 (R142, log 8). -/

namespace Sys2Proof.Machine

/-- ADD (spec 41 R140). -/
def execAdd (rd rs1 rs2 : RegIdx) (s : State) : Host.Outcome State Fault Refusal :=
  writeAndAdvance rd (s.readReg rs1 + s.readReg rs2) s

/-- SUB (spec 41 R141): the minuend is `rs1`. -/
def execSub (rd rs1 rs2 : RegIdx) (s : State) : Host.Outcome State Fault Refusal :=
  writeAndAdvance rd (s.readReg rs1 - s.readReg rs2) s

end Sys2Proof.Machine
end

