-- ==== Sys2Proof/Machine/Jumps.lean ====
section
/-! DEFINITION. JAL and JALR (spec 47); offsets count cells and are never scaled (R173). -/

namespace Sys2Proof.Machine

/-- JAL (spec 47 R170). -/
def execJal (rd : RegIdx) (imm : Word) (s : State) : Host.Outcome State Fault Refusal :=
  linkAndJump rd (relativeTarget s imm) s

/-- JALR (spec 47 R171): the old `x[rs1]` (log 13), bit 0 of the sum kept (log 17). -/
def execJalr (rd rs1 : RegIdx) (imm : Word) (s : State) : Host.Outcome State Fault Refusal :=
  linkAndJump rd (s.readReg rs1 + imm) s

end Sys2Proof.Machine
end

