-- ==== Sys2Proof/Machine/Loads.lean ====
section
/-! DEFINITION. LW, LH, LB (spec 43): one read of one whole cell, the low bits kept and sign-extended (R153). -/

namespace Sys2Proof.Machine

/-- LW (spec 43 R150). -/
def execLw (rd rs1 : RegIdx) (imm : Word) (s : State) : Host.Outcome State Fault Refusal :=
  loadSigned .word rd rs1 imm s

/-- LH (spec 43 R151). -/
def execLh (rd rs1 : RegIdx) (imm : Word) (s : State) : Host.Outcome State Fault Refusal :=
  loadSigned .half rd rs1 imm s

/-- LB (spec 43 R152). -/
def execLb (rd rs1 : RegIdx) (imm : Word) (s : State) : Host.Outcome State Fault Refusal :=
  loadSigned .byte rd rs1 imm s

end Sys2Proof.Machine
end

