-- ==== Sys2Proof/Machine/MulDiv.lean ====
section
/-! DEFINITION. MUL and DIV, present only when `HAS_MULDIV` is true (spec 42). -/

namespace Sys2Proof.Machine

/-- `sdiv(a, b)` for a divisor other than zero (spec 42 R146): the signed quotient rounded toward zero, and
`0x80000000` for -2^31 by -1 (log 9). -/
def sdiv (a b : Word) : Word :=
  if a = 0x80000000#32 ∧ b = 0xFFFFFFFF#32 then 0x80000000#32
  else BitVec.ofInt 32 (a.toInt.tdiv b.toInt)

/-- What the word of MUL or DIV does when `HAS_MULDIV` is false: `DecodeFault(funct7, 1)` (spec 42 R147). A step never comes
here, since `decode` already raises it (log 24). -/
def absentMulDiv (s : State) : Host.Outcome State Fault Refusal :=
  .next (s.raise (.decode ⟨.funct7, 1⟩))

/-- MUL (spec 42 R145): the low 32 bits of the product. -/
def execMul (rd rs1 rs2 : RegIdx) (s : State) : Host.Outcome State Fault Refusal :=
  if s.config.hasMulDiv then writeAndAdvance rd (s.readReg rs1 * s.readReg rs2) s
  else absentMulDiv s

/-- DIV (spec 42 R146): a zero divisor raises `ArithmeticFault` before any write, whatever `rd` and `x[rs1]` are. -/
def execDiv (rd rs1 rs2 : RegIdx) (s : State) : Host.Outcome State Fault Refusal :=
  if s.config.hasMulDiv then
    if s.readReg rs2 = 0#32 then .next (s.raise .arithmetic)
    else writeAndAdvance rd (sdiv (s.readReg rs1) (s.readReg rs2)) s
  else absentMulDiv s

end Sys2Proof.Machine
end

