-- ==== Sys2Proof/Machine/Stores.lean ====
section
/-! DEFINITION. SW, SH, SB (spec 45): one write of one whole cell, zero above the stored bits (R163). -/

namespace Sys2Proof.Machine

/-- SW (spec 45 R160). -/
def execSw (rs2 rs1 : RegIdx) (imm : Word) (s : State) : Host.Outcome State Fault Refusal :=
  storeLow .word rs2 rs1 imm s

/-- SH (spec 45 R161). -/
def execSh (rs2 rs1 : RegIdx) (imm : Word) (s : State) : Host.Outcome State Fault Refusal :=
  storeLow .half rs2 rs1 imm s

/-- SB (spec 45 R162). -/
def execSb (rs2 rs1 : RegIdx) (imm : Word) (s : State) : Host.Outcome State Fault Refusal :=
  storeLow .byte rs2 rs1 imm s

end Sys2Proof.Machine
end

