-- ==== Sys2Proof/Machine/UpperImmediate.lean ====
section
/-! DEFINITION. LUI and AUIPC (spec 46). -/

namespace Sys2Proof.Machine

/-- LUI (spec 46 R165). -/
def execLui (rd : RegIdx) (imm : Word) (s : State) : Host.Outcome State Fault Refusal :=
  writeAndAdvance rd imm s

/-- AUIPC (spec 46 R166): `pc` is the word index of the AUIPC itself. -/
def execAuipc (rd : RegIdx) (imm : Word) (s : State) : Host.Outcome State Fault Refusal :=
  writeAndAdvance rd (imm + s.pc) s

end Sys2Proof.Machine
end

