-- ==== Sys2Proof/Machine/Loop.lean ====
section
/-! DEFINITION. The fetch, decode, execute, advance loop (spec 40). -/

namespace Sys2Proof.Machine

/-- One pass of a running engine (spec 40 R129): the termination test before every fetch (R122, log 18), fetch (R123),
decode (R124; a decode fault is taken with nothing touched), execute (R126). The instruction's own assignment to `pc` is the
Advance state's; nothing is added after it (R127). -/
def runningStep (s : State) : Host.Outcome State Fault Refusal :=
  if fetchAllowed s then
    match s.fetch with
    | .error f => .fault f
    | .ok w =>
      match decode s.config.hasMulDiv w with
      | .error d => .next (s.raise (.decode d))
      | .ok i => exec i s
  else .next s.halt

/-- The engine takes steps only while `status` is `Running` (spec 10 R37, spec 40 R129); otherwise the state stays as it is
(log 16). -/
def engineStep (s : State) : Host.Outcome State Fault Refusal :=
  match s.status with
  | .running => runningStep s
  | .idle => .next s
  | .halted => .next s
  | .faulted _ => .next s

/-- The word `w` put where the next fetch reads it, in a machine that is running: the cell at `pc` (spec 20 R67), the bound
raised past `pc` if it is not above it already, which stands for a load and is recorded as one (log 27), and `status` as
`execute()` sets it (log 16). -/
def placeFetchWord (s : State) (w : Word) : State :=
  let stored := match s.cellIndex s.pc with
    | some a => s.setMem (putCell s.mem a w)
    | none => s
  let bounded := if fetchAllowed stored then stored else (stored.setCount (stored.pc + 1#32)).setLoaded true
  bounded.setStatus .running

end Sys2Proof.Machine
end

