-- ==== Sys2Proof/Machine/Step.lean ====
section
/-! DEFINITION. The step (spec 40 R129) and the placing of an instruction where it fetches. -/

namespace Sys2Proof.Machine

/-- One step of the machine. -/
def step (s : State) : Host.Outcome State Fault Refusal := engineStep s

/-- `s` with the opcode-table word stored where `step` fetches next. -/
def State.withFetchWord (s : State) (nbits w : Nat) : State := placeFetchWord s (tableWord nbits w)

end Sys2Proof.Machine
end

