-- ==== Sys2Proof/Decode/Table.lean ====
section
/-! DEFINITION. spec/opcode_table.json as data: each row's `match` and `mask`, and whether its `present` asks for
`HAS_MULDIV`. The decoder does not read it; statements compare the two. -/

namespace Sys2Proof

/-- One row of the opcode table: the words `w` with `w & mask = pattern`. -/
structure OpcodeRow where
  mnemonic : String
  pattern : Word
  mask : Word
  needsMulDiv : Bool
deriving DecidableEq, Repr

/-- The row of an instruction, its numbers as the table prints them. -/
def rowOf : Instr → OpcodeRow
  | .add _ _ _ => ⟨"ADD", 0x00000033#32, 0xFE00707F#32, false⟩
  | .sub _ _ _ => ⟨"SUB", 0x40000033#32, 0xFE00707F#32, false⟩
  | .mul _ _ _ => ⟨"MUL", 0x02000033#32, 0xFE00707F#32, true⟩
  | .div _ _ _ => ⟨"DIV", 0x02004033#32, 0xFE00707F#32, true⟩
  | .lb _ _ _ => ⟨"LB", 0x00000003#32, 0x0000707F#32, false⟩
  | .lh _ _ _ => ⟨"LH", 0x00001003#32, 0x0000707F#32, false⟩
  | .lw _ _ _ => ⟨"LW", 0x00002003#32, 0x0000707F#32, false⟩
  | .addi _ _ _ => ⟨"ADDI", 0x00000013#32, 0x0000707F#32, false⟩
  | .ori _ _ _ => ⟨"ORI", 0x00006013#32, 0x0000707F#32, false⟩
  | .andi _ _ _ => ⟨"ANDI", 0x00007013#32, 0x0000707F#32, false⟩
  | .sb _ _ _ => ⟨"SB", 0x00000023#32, 0x0000707F#32, false⟩
  | .sh _ _ _ => ⟨"SH", 0x00001023#32, 0x0000707F#32, false⟩
  | .sw _ _ _ => ⟨"SW", 0x00002023#32, 0x0000707F#32, false⟩
  | .lui _ _ => ⟨"LUI", 0x00000037#32, 0x0000007F#32, false⟩
  | .auipc _ _ => ⟨"AUIPC", 0x00000017#32, 0x0000007F#32, false⟩
  | .jal _ _ => ⟨"JAL", 0x0000006F#32, 0x0000007F#32, false⟩
  | .jalr _ _ _ => ⟨"JALR", 0x00000067#32, 0x0000707F#32, false⟩
  | .beq _ _ _ => ⟨"BEQ", 0x00000063#32, 0x0000707F#32, false⟩
  | .bne _ _ _ => ⟨"BNE", 0x00001063#32, 0x0000707F#32, false⟩
  | .blt _ _ _ => ⟨"BLT", 0x00004063#32, 0x0000707F#32, false⟩
  | .bge _ _ _ => ⟨"BGE", 0x00005063#32, 0x0000707F#32, false⟩
  | .bltu _ _ _ => ⟨"BLTU", 0x00006063#32, 0x0000707F#32, false⟩
  | .bgeu _ _ _ => ⟨"BGEU", 0x00007063#32, 0x0000707F#32, false⟩

/-- The 23 rows, in the table's order: the rows of one instruction of each kind. -/
def opcodeTable : List OpcodeRow :=
  [rowOf (.add 0 0 0), rowOf (.sub 0 0 0), rowOf (.mul 0 0 0), rowOf (.div 0 0 0), rowOf (.lb 0 0 0), rowOf (.lh 0 0 0),
    rowOf (.lw 0 0 0), rowOf (.addi 0 0 0), rowOf (.ori 0 0 0), rowOf (.andi 0 0 0), rowOf (.sb 0 0 0), rowOf (.sh 0 0 0),
    rowOf (.sw 0 0 0), rowOf (.lui 0 0), rowOf (.auipc 0 0), rowOf (.jal 0 0), rowOf (.jalr 0 0 0), rowOf (.beq 0 0 0),
    rowOf (.bne 0 0 0), rowOf (.blt 0 0 0), rowOf (.bge 0 0 0), rowOf (.bltu 0 0 0), rowOf (.bgeu 0 0 0)]

end Sys2Proof
end

