-- ==== Sys2Proof/Machine/HostPort.lean ====
section
/-! DEFINITION. The host interface (spec 50): six operations, reset and two status reads (R200). A refused operation has no
result and no effect (R208). The wires that carry them are in no source (D23). DESIGN CHOICE (log 28): the spec gives an index or
an address no type, and the model takes a natural number, so that a negative one cannot be given. -/

namespace Sys2Proof.Machine

/-- Reset (spec 70 R250): every piece of state at its reset value, the parameters fixed at the same moment. DESIGN CHOICE (log 29):
it depends on no earlier state, so it is not refused in any status. -/
def hostReset (c : Config) : State := State.resetWith c

/-- `mem[a + i] <- words[i]`, in order (spec 50 R201). -/
def loadWords : Memory → Nat → List Word → Memory
  | m, _, [] => m
  | m, a, w :: ws => loadWords (putCell m a w) (a + 1) ws

/-- `loadInstructionsMemory(words)` (spec 50 R201): the words from cell 0 on, then `instructionCount <- n`; once per reset and
before `execute()` (R209): the load records itself, whatever its length, and a second one is refused (log 27). -/
def hostLoad (words : List Word) (s : State) : Host.Outcome State Fault Refusal :=
  match s.status with
  | .running => .refused .hostWhileRunning
  | .halted => .refused .hostOncePerReset
  | .faulted _ => .refused .hostOncePerReset
  | .idle =>
    if s.loaded then .refused .hostOncePerReset
    else if s.config.memWords < words.length then .refused (.hostProgramTooLong words.length)
    else .next (((s.setMem (loadWords s.mem 0 words)).setCount (BitVec.ofNat 32 words.length)).setLoaded true)

/-- Whether the host's loads, pokes and peeks are refused (spec 50 R207); the two status reads and reset are not (log 29). -/
def hostLocked (s : State) : Bool := decide (s.status = .running)

/-- `readRegister(index)` (spec 50 R202); refused outside 0 .. 31 (R208), the index a natural number (log 28). -/
def hostReadRegister (index : Nat) (s : State) : Except Refusal Word :=
  if hostLocked s then .error .hostWhileRunning
  else if index < 32 then .ok (s.readReg (BitVec.ofNat 5 index))
  else .error (.hostRegisterIndex index)

/-- `writeRegister(index, value)` (spec 50 R203); refused outside 0 .. 31 (R208), the index a natural number (log 28). -/
def hostWriteRegister (index : Nat) (value : Word) (s : State) : Host.Outcome State Fault Refusal :=
  if hostLocked s then .refused .hostWhileRunning
  else if index < 32 then .next (s.writeReg (BitVec.ofNat 5 index) value)
  else .refused (.hostRegisterIndex index)

/-- `readMemory(address)` (spec 50 R204); refused outside the array (R208), the address a natural number (log 28). -/
def hostReadMemory (address : Nat) (s : State) : Except Refusal Word :=
  if hostLocked s then .error .hostWhileRunning
  else if address < s.config.memWords then .ok (cellAt s.mem address)
  else .error (.hostAddress address)

/-- `writeMemory(address, value)` (spec 50 R205); refused outside the array (R208), the address a natural number (log 28). -/
def hostWriteMemory (address : Nat) (value : Word) (s : State) : Host.Outcome State Fault Refusal :=
  if hostLocked s then .refused .hostWhileRunning
  else if address < s.config.memWords then .next (s.setMem (putCell s.mem address value))
  else .refused (.hostAddress address)

/-- `readStatus()` (spec 50 R200). DESIGN CHOICE (log 29): R207 does not say whether it may be used during a run, and the model
answers in every status. -/
def hostReadStatus (s : State) : Status := s.status

/-- `readPc()` (spec 50 R200). DESIGN CHOICE (log 29): R207 does not say whether it may be used during a run, and the model
answers in every status. -/
def hostReadPc (s : State) : Word := s.pc

/-- The start of `execute()`: `status <- Running`, nothing else (spec 50 R206), defined only from `Idle` (R209). -/
def hostStart (s : State) : Host.Outcome State Fault Refusal :=
  match s.status with
  | .idle => .next (s.setStatus .running)
  | .running => .refused .hostWhileRunning
  | .halted => .refused .hostOncePerReset
  | .faulted _ => .refused .hostOncePerReset

/-- At most `fuel` steps, ending when `status` leaves `Running` (spec 40 R121, R130) or the model stops. -/
def runSteps : Nat → State → Host.Outcome State Fault Refusal
  | 0, s => .next s
  | fuel + 1, s =>
    if s.status = .running then
      match step s with
      | .next t => runSteps fuel t
      | .fault f => .fault f
      | .refused r => .refused r
    else .next s

/-- `execute()` under fuel (spec 50 R206, spec 40 R130): a state still `Running` says the run has not ended within it. -/
def hostExecute (fuel : Nat) (s : State) : Host.Outcome State Fault Refusal :=
  match hostStart s with
  | .next t => runSteps fuel t
  | .fault f => .fault f
  | .refused r => .refused r

end Sys2Proof.Machine
end

