-- ==== Sys2Proof/Safety.lean ====
section
/-! DEFINITION. What counts as a safe step and as a legal state, in the terms the statements use, and the shapes of an
instruction's effect: what it writes, and that everything else is unchanged. -/

namespace Sys2Proof.Machine

/-- The word index `addr` lies in the array: `0 <= signed(addr) < MEM_WORDS` (spec 20 R51). -/
abbrev InArray (s : State) (addr : Word) : Prop :=
  0 ≤ addr.toInt ∧ addr.toInt < (s.config.memWords : Int)

/-- The cell a word index of the array names: `mem[signed(addr)]`. -/
def cellOf (s : State) (addr : Word) : Word := cellAt s.mem addr.toInt.toNat

/-! Shapes of an effect. -/

/-- `t` is `s` with `x[rd] = v` (nothing written if `rd = 0`) and `pc = p`; every other register, every cell, the bound, the
status, the configuration and the load's record are unchanged. -/
structure OnlyRegAndPc (s t : State) (rd : RegIdx) (v p : Word) : Prop where
  zero : t.readReg 0#5 = 0#32
  dest : rd ≠ 0#5 → t.readReg rd = v
  others : ∀ r, r ≠ rd → t.readReg r = s.readReg r
  pc : t.pc = p
  cells : ∀ a, cellAt t.mem a = cellAt s.mem a
  bound : t.instructionCount = s.instructionCount
  status : t.status = s.status
  config : t.config = s.config
  loaded : t.loaded = s.loaded

/-- `t` is `s` with cell `a` equal to `v` and `pc = p`; every register, every other cell, the bound, the status, the
configuration and the load's record are unchanged. -/
structure OnlyCellAndPc (s t : State) (a : Nat) (v p : Word) : Prop where
  cell : cellAt t.mem a = v
  others : ∀ b, b ≠ a → cellAt t.mem b = cellAt s.mem b
  regs : ∀ r, t.readReg r = s.readReg r
  pc : t.pc = p
  bound : t.instructionCount = s.instructionCount
  status : t.status = s.status
  config : t.config = s.config
  loaded : t.loaded = s.loaded

/-- `t` is `s` with `pc = p` and nothing else changed. -/
structure OnlyPc (s t : State) (p : Word) : Prop where
  regs : ∀ r, t.readReg r = s.readReg r
  pc : t.pc = p
  cells : ∀ a, cellAt t.mem a = cellAt s.mem a
  bound : t.instructionCount = s.instructionCount
  status : t.status = s.status
  config : t.config = s.config
  loaded : t.loaded = s.loaded

/-- A decode fault or the arithmetic fault taken: `status` records it and nothing else changes (spec 60 R223). -/
def tookFault (s : State) (f : HwFault) : State := { s with status := .faulted f }

/-! Safe steps. -/

/-- The word index of an instruction's one data access, if it makes one (spec 20 R58). -/
def dataAddress : Instr → State → Option Word
  | .lb _ rs1 imm, s => some (effectiveAddress s rs1 imm)
  | .lh _ rs1 imm, s => some (effectiveAddress s rs1 imm)
  | .lw _ rs1 imm, s => some (effectiveAddress s rs1 imm)
  | .sb _ rs1 imm, s => some (effectiveAddress s rs1 imm)
  | .sh _ rs1 imm, s => some (effectiveAddress s rs1 imm)
  | .sw _ rs1 imm, s => some (effectiveAddress s rs1 imm)
  | .add _ _ _, _ => none
  | .sub _ _ _, _ => none
  | .mul _ _ _, _ => none
  | .div _ _ _, _ => none
  | .addi _ _ _, _ => none
  | .ori _ _ _, _ => none
  | .andi _ _ _, _ => none
  | .lui _ _, _ => none
  | .auipc _ _, _ => none
  | .jal _ _, _ => none
  | .jalr _ _ _, _ => none
  | .beq _ _ _, _ => none
  | .bne _ _ _, _ => none
  | .blt _ _ _, _ => none
  | .bge _ _ _, _ => none
  | .bltu _ _ _, _ => none
  | .bgeu _ _ _, _ => none

/-- Whether the instruction is a store (spec 45). -/
def isStore : Instr → Bool
  | .add _ _ _ => false
  | .sub _ _ _ => false
  | .mul _ _ _ => false
  | .div _ _ _ => false
  | .lb _ _ _ => false
  | .lh _ _ _ => false
  | .lw _ _ _ => false
  | .addi _ _ _ => false
  | .ori _ _ _ => false
  | .andi _ _ _ => false
  | .sb _ _ _ => true
  | .sh _ _ _ => true
  | .sw _ _ _ => true
  | .lui _ _ => false
  | .auipc _ _ => false
  | .jal _ _ => false
  | .jalr _ _ _ => false
  | .beq _ _ _ => false
  | .bne _ _ _ => false
  | .blt _ _ _ => false
  | .bge _ _ _ => false
  | .bltu _ _ _ => false
  | .bgeu _ _ _ => false

/-- Whether the instruction is one of the six branches (spec 48). -/
def isBranch : Instr → Bool
  | .add _ _ _ => false
  | .sub _ _ _ => false
  | .mul _ _ _ => false
  | .div _ _ _ => false
  | .lb _ _ _ => false
  | .lh _ _ _ => false
  | .lw _ _ _ => false
  | .addi _ _ _ => false
  | .ori _ _ _ => false
  | .andi _ _ _ => false
  | .sb _ _ _ => false
  | .sh _ _ _ => false
  | .sw _ _ _ => false
  | .lui _ _ => false
  | .auipc _ _ => false
  | .jal _ _ => false
  | .jalr _ _ _ => false
  | .beq _ _ _ => true
  | .bne _ _ _ => true
  | .blt _ _ _ => true
  | .bge _ _ _ => true
  | .bltu _ _ _ => true
  | .bgeu _ _ _ => true

/-- The offset of a transfer relative to the executing instruction: `imm_J` of JAL, `imm_B` of a branch. -/
def relativeOffset : Instr → Option Word
  | .add _ _ _ => none
  | .sub _ _ _ => none
  | .mul _ _ _ => none
  | .div _ _ _ => none
  | .lb _ _ _ => none
  | .lh _ _ _ => none
  | .lw _ _ _ => none
  | .addi _ _ _ => none
  | .ori _ _ _ => none
  | .andi _ _ _ => none
  | .sb _ _ _ => none
  | .sh _ _ _ => none
  | .sw _ _ _ => none
  | .lui _ _ => none
  | .auipc _ _ => none
  | .jal _ imm => some imm
  | .jalr _ _ _ => none
  | .beq _ _ imm => some imm
  | .bne _ _ imm => some imm
  | .blt _ _ imm => some imm
  | .bge _ _ imm => some imm
  | .bltu _ _ imm => some imm
  | .bgeu _ _ imm => some imm

/-- The engine is about to execute `i`: it is running, `pc` is below the bound, and the fetched word decodes to `i`
(spec 40 R122 to R124). -/
def AboutToExecute (s : State) (i : Instr) : Prop :=
  s.status = .running ∧ fetchAllowed s = true ∧ ∃ w, s.fetch = .ok w ∧ decode s.config.hasMulDiv w = .ok i

/-- A safe step: every access of the step, the fetch and the instruction's data access, stays in the array (the premise
spec 20 R55 puts on every claim). -/
def SafeStep (s : State) : Prop :=
  s.status = .running → fetchAllowed s = true →
    InArray s s.pc ∧ ∀ i a, AboutToExecute s i → dataAddress i s = some a → InArray s a

/-! Legal states. -/

/-- What `status` says of the rest of the state (spec 40 R131, spec 60 R221, R222, R224): an idle machine stands at cell 0;
a halted one is at or past its bound; a faulted one stands at the instruction that faulted. -/
def StatusFits (s : State) : Prop :=
  match s.status with
  | .idle => s.pc = 0#32
  | .running => True
  | .halted => fetchAllowed s = false
  | .faulted (.decode d) =>
    fetchAllowed s = true ∧ ∃ w, s.fetch = .ok w ∧ decode s.config.hasMulDiv w = .error d
  | .faulted .arithmetic =>
    fetchAllowed s = true ∧ s.config.hasMulDiv = true ∧ ∃ w rd rs1 rs2,
      s.fetch = .ok w ∧ decode s.config.hasMulDiv w = .ok (.div rd rs1 rs2) ∧ s.readReg rs2 = 0#32

/-- The invariant of the machine. -/
structure State.Inv (s : State) : Prop where
  /-- spec 00 R7 -/
  legal : s.config.Legal
  /-- The memory keeps its canonical form. -/
  canonical : Memory.wf s.mem
  /-- Only cells of the array are listed (spec 10 R33). -/
  inside : ∀ c ∈ s.mem, c.1 < s.config.memWords
  /-- spec 10 R30 -/
  boundNonneg : 0 ≤ s.instructionCount.toInt
  /-- spec 10 R30 -/
  boundFits : s.instructionCount.toInt ≤ (s.config.memWords : Int)
  /-- Only a load sets the bound (spec 10 R30). -/
  unloadedBound : s.loaded = false → s.instructionCount = 0#32
  /-- Nothing was ever stored in register 0's slot (spec 10 R23). -/
  slotZero : s.regs[0] = 0#32
  statusFits : StatusFits s

end Sys2Proof.Machine
end

