-- ==== Sys2Proof/Certificates/Slice0/Obligations.lean ====
section
/-! DEFINITION. The statements for the provers, from the spec's numbered rules. OBLIGATIONS.json lists them, with the rules each
cites; a statement that rests on a choice the spec marks as its own, or on a log entry, names it in its docstring. -/

open Sys2Proof Sys2Proof.Machine

/-! ## Registers -/

/-- Spec 10 R22, R23: register 0 reads as zero in every state; a write to it, by an instruction or by the host, is accepted and
changes no register. -/
def Obligations.RegisterZeroIsHardwired : Prop :=
  ∀ s : State,
    s.readReg 0#5 = 0#32 ∧
    (∀ v, s.writeReg 0#5 v = s) ∧
    (∀ v, s.status ≠ .running → hostWriteRegister 0 v s = .next s) ∧
    (∀ i t, i.dest = some 0#5 → exec i s = .next t → ∀ r, t.readReg r = s.readReg r)

/-- Spec 10 R24: registers 1 to 31 are plain storage: a read returns what an instruction, the host or reset stored last, and a
write changes nothing else. -/
def Obligations.RegistersArePlainStorage : Prop :=
  (∀ (s : State) (i : RegIdx) (v : Word), i ≠ 0#5 →
    (s.writeReg i v).readReg i = v ∧ (∀ r, r ≠ i → (s.writeReg i v).readReg r = s.readReg r) ∧
    (s.writeReg i v).pc = s.pc ∧ (s.writeReg i v).mem = s.mem ∧ (s.writeReg i v).status = s.status ∧
    (s.writeReg i v).instructionCount = s.instructionCount ∧ (s.writeReg i v).config = s.config ∧
    (s.writeReg i v).loaded = s.loaded) ∧
  (∀ (s : State) (n : Nat) (v : Word), s.status ≠ .running → 1 ≤ n → n < 32 →
    ∃ t, hostWriteRegister n v s = .next t ∧ hostReadRegister n t = .ok v ∧
      ∀ k, k < 32 → k ≠ n → hostReadRegister k t = hostReadRegister k s) ∧
  (∀ (c : Config) (i : RegIdx), (hostReset c).readReg i = 0#32)

/-- Spec 10 R26: an instruction reads at most the registers R26 lists for it and writes at most `x[rd]`. Two running machines
that agree on everything but other registers give the same outcome, the same `pc`, memory, status and destination, and neither
changes a register that is not the destination. -/
def Obligations.InstructionsUseOnlyTheirRegisters : Prop :=
  ∀ (i : Instr) (s s' : State), s.status = .running → s'.status = s.status → s'.pc = s.pc → s'.mem = s.mem →
    s'.instructionCount = s.instructionCount → s'.config = s.config →
    (∀ r ∈ i.sources, s'.readReg r = s.readReg r) →
    match exec i s, exec i s' with
    | .next t, .next t' =>
      t'.pc = t.pc ∧ t'.mem = t.mem ∧ t'.status = t.status ∧
      (t.status = .running → ∀ rd, i.dest = some rd → t'.readReg rd = t.readReg rd) ∧
      (∀ r, i.dest ≠ some r → t.readReg r = s.readReg r ∧ t'.readReg r = s'.readReg r)
    | .fault f, .fault f' => f' = f
    | _, _ => False

/-! ## Reset and the invariant -/

/-- Spec 10 section 8, spec 70 section 1: what reset leaves. Zero registers, zero cells and `pc` 0 are the source's; the bound 0
and the status idle are the spec's own choice (D13, D27, log 11); the configuration of `State.reset` and the record that no program
is loaded are the model's (logs 2, 27). -/
def Obligations.ResetLeavesTheListedValues : Prop :=
  (∀ c : Config, (∀ r, (hostReset c).readReg r = 0#32) ∧ (∀ a, cellAt (hostReset c).mem a = 0#32) ∧ (hostReset c).pc = 0#32 ∧
    (hostReset c).instructionCount = 0#32 ∧ (hostReset c).status = .idle ∧ (hostReset c).config = c ∧
    (hostReset c).loaded = false) ∧
  State.reset = hostReset resetConfig

/-- The invariant holds right after reset, for every legal configuration and for `State.reset`. The bound 0 and the status idle are
the spec's own choice (D13, D27, log 11); that the parameters of `State.reset` are legal, that no load is recorded and that slot 0
is zero are the model's (logs 2, 27, 20). -/
def Obligations.ResetSatisfiesTheInvariant : Prop :=
  (∀ c : Config, c.Legal → (hostReset c).Inv) ∧ State.reset.Inv

/-- Every step keeps the invariant: legal parameters, canonical memory inside the array, a bound between 0 and `MEM_WORDS`, a bound
of 0 unless a program was loaded (log 27), register 0's slot zero, and a status that fits the rest of the state: halted only at or
past the bound, faulted only at an instruction that faults so. The bound and the loop test are signed (D10, log 10); `pc` stays at a
fault (D14, log 14). Slot 0 is the model's (log 20). -/
def Obligations.StepKeepsTheInvariant : Prop :=
  ∀ s t : State, s.Inv → step s = .next t → t.Inv

/-- Every host operation before a run keeps the invariant, and none but the start leaves `Idle`. The load keeps it through the
model's record of the load (log 27), the refusal of a longer program (D18, log 15) and the signed 32-bit bound (D10, log 10); slot 0
is the model's (log 20). -/
def Obligations.HostBeforeARunKeepsTheInvariant : Prop :=
  ∀ s : State, s.Inv → s.status = .idle →
    (∀ ws t, hostLoad ws s = .next t → t.Inv ∧ t.status = .idle) ∧
    (∀ n v t, hostWriteRegister n v s = .next t → t.Inv ∧ t.status = .idle) ∧
    (∀ a v t, hostWriteMemory a v s = .next t → t.Inv ∧ t.status = .idle) ∧
    (∀ t, hostStart s = .next t → t.Inv ∧ t.status = .running)

/-- Spec 70 R251: `pc` is 0 after reset, no host operation writes it, and the first word a started machine fetches is `mem[0]`,
provided the bound is at least 1. -/
def Obligations.ExecutionStartsAtCellZero : Prop :=
  (∀ c : Config, (hostReset c).pc = 0#32) ∧
  (∀ s t : State, (∃ ws, hostLoad ws s = .next t) ∨ (∃ n v, hostWriteRegister n v s = .next t) ∨
    (∃ a v, hostWriteMemory a v s = .next t) ∨ hostStart s = .next t → t.pc = s.pc) ∧
  (∀ s t : State, s.Inv → s.status = .idle → 1 ≤ s.instructionCount.toInt → hostStart s = .next t →
    fetchAllowed t = true ∧ t.fetch = .ok (cellAt s.mem 0))

/-! ## Memory -/

/-- Spec 20 section 2, MemRead: inside the array, the low `n` bits of the cell, zeros above; outside, no value but the model's own
stop (D11, log 4). -/
def Obligations.MemReadKeepsTheLowBits : Prop :=
  ∀ (s : State) (addr : Word) (n : Width),
    (InArray s addr → ∃ v, s.memRead addr n = .ok v ∧ v.toNat = (cellOf s addr).toNat % 2 ^ n.bits) ∧
    (¬ InArray s addr → s.memRead addr n = .error (.outOfRange addr.toInt))

/-- Spec 20 section 2, MemWrite: inside the array the whole cell is replaced by the zero-extended low `n` bits and nothing else
changes; outside, the model's own stop (D11, log 4). -/
def Obligations.MemWriteReplacesTheWholeCell : Prop :=
  ∀ (s : State) (addr : Word) (n : Width) (v : Word),
    (InArray s addr → ∃ t, s.memWrite addr n v = .ok t ∧ (cellOf t addr).toNat = v.toNat % 2 ^ n.bits ∧
      (∀ a, a ≠ addr.toInt.toNat → cellAt t.mem a = cellAt s.mem a) ∧ t.regs = s.regs ∧ t.pc = s.pc ∧
      t.instructionCount = s.instructionCount ∧ t.status = s.status ∧ t.config = s.config ∧ t.loaded = s.loaded) ∧
    (¬ InArray s addr → s.memWrite addr n v = .error (.outOfRange addr.toInt))

/-- Spec 43, what a load sees after a store to the same address (the spec derives it): SW then LW gives the register back; SH then
LH its low half sign-extended, SH then LW zero-extended; SB then LB its low byte sign-extended, SB then LW zero-extended. The
address wraps (D6, log 8). -/
def Obligations.LoadAfterStoreToTheSameCell : Prop :=
  ∀ (rd rs1 rs2 : RegIdx) (imm : Word) (s : State), rd ≠ 0#5 → InArray s (s.readReg rs1 + imm) →
    (∃ t u, exec (.sw rs2 rs1 imm) s = .next t ∧ exec (.lw rd rs1 imm) t = .next u ∧ u.readReg rd = s.readReg rs2) ∧
    (∃ t u, exec (.sh rs2 rs1 imm) s = .next t ∧ exec (.lh rd rs1 imm) t = .next u ∧
      u.readReg rd = ((s.readReg rs2).setWidth 16).signExtend 32) ∧
    (∃ t u, exec (.sh rs2 rs1 imm) s = .next t ∧ exec (.lw rd rs1 imm) t = .next u ∧
      u.readReg rd = ((s.readReg rs2).setWidth 16).setWidth 32) ∧
    (∃ t u, exec (.sb rs2 rs1 imm) s = .next t ∧ exec (.lb rd rs1 imm) t = .next u ∧
      u.readReg rd = ((s.readReg rs2).setWidth 8).signExtend 32) ∧
    (∃ t u, exec (.sb rs2 rs1 imm) s = .next t ∧ exec (.lw rd rs1 imm) t = .next u ∧
      u.readReg rd = ((s.readReg rs2).setWidth 8).setWidth 32)

/-- Spec 20 section 5, fetch coherence (the spec derives it, log 22): a step that stores a word into the next cell leaves a machine
whose very next fetch reads that word. The address wraps (D6, log 8); the loop test is D10 and D24 (logs 10, 18). -/
def Obligations.StoredWordIsTheNextFetch : Prop :=
  ∀ (rs2 rs1 : RegIdx) (imm : Word) (s : State), AboutToExecute s (.sw rs2 rs1 imm) →
    s.readReg rs1 + imm = s.pc + 1#32 → InArray s (s.pc + 1#32) →
    ∃ t, step s = .next t ∧ t.pc = s.pc + 1#32 ∧ t.fetch = .ok (s.readReg rs2)

/-- Spec 10 section 5: of the instructions only SW, SH and SB change memory, and a store changes no cell but that of its effective
address. The address wraps (D6, log 8). -/
def Obligations.OnlyStoresChangeMemory : Prop :=
  ∀ (i : Instr) (s t : State), exec i s = .next t →
    (isStore i = false → t.mem = s.mem) ∧
    (isStore i = true → ∀ addr, dataAddress i s = some addr →
      ∀ a, a ≠ addr.toInt.toNat → cellAt t.mem a = cellAt s.mem a)

/-- Spec 20 section 3, at most one data access per instruction: a cell that is not the one the instruction accesses has no influence
on it and is left alone. Outside the array both stop (D11, log 4); the address wraps (D6, log 8). -/
def Obligations.OtherCellsAreIrrelevant : Prop :=
  ∀ (i : Instr) (s : State) (c : Nat) (v : Word),
    (∀ addr, dataAddress i s = some addr → InArray s addr → addr.toInt.toNat ≠ c) →
    match exec i s, exec i (s.setMem (putCell s.mem c v)) with
    | .next t, .next t' =>
      t'.pc = t.pc ∧ t'.status = t.status ∧ (∀ r, t'.readReg r = t.readReg r) ∧
      (∀ b, b ≠ c → cellAt t'.mem b = cellAt t.mem b) ∧ cellAt t'.mem c = v
    | .fault f, .fault f' => f' = f
    | _, _ => False

/-! ## Encoding -/

/-- Spec 30 R81: the six fields are the stated bits of the word. -/
def Obligations.FieldsAreTheStatedBits : Prop :=
  ∀ (w : Word) (k : Nat),
    (k < 7 → (opcodeOf w).getLsbD k = w.getLsbD k) ∧
    (k < 5 → (rdOf w).getLsbD k = w.getLsbD (7 + k)) ∧
    (k < 3 → (funct3Of w).getLsbD k = w.getLsbD (12 + k)) ∧
    (k < 5 → (rs1Of w).getLsbD k = w.getLsbD (15 + k)) ∧
    (k < 5 → (rs2Of w).getLsbD k = w.getLsbD (20 + k)) ∧
    (k < 7 → (funct7Of w).getLsbD k = w.getLsbD (25 + k))

/-- Spec 30 R83, R85, R86, R87: the I, B, U and J immediates bit by bit, their ranges, and the instructions that use them. -/
def Obligations.ImmediatesAreTheStatedBits : Prop :=
  (∀ (w : Word) (k : Nat), k < 32 →
    (immI w).getLsbD k = (if k < 12 then w.getLsbD (20 + k) else w.getLsbD 31) ∧
    (immB w).getLsbD k = (if k = 0 then false else if k < 5 then w.getLsbD (7 + k) else if k < 11 then w.getLsbD (20 + k)
      else if k = 11 then w.getLsbD 7 else w.getLsbD 31) ∧
    (immU w).getLsbD k = (if k < 12 then false else w.getLsbD k) ∧
    (immJ w).getLsbD k = (if k = 0 then false else if k < 11 then w.getLsbD (20 + k) else if k = 11 then w.getLsbD 20
      else if k < 20 then w.getLsbD k else w.getLsbD 31)) ∧
  (∀ w : Word, fitsImm12 (immI w) = true ∧ fitsImmB (immB w) = true ∧ fitsImmU (immU w) = true ∧ fitsImmJ (immJ w) = true) ∧
  (∀ (m : Bool) (w : Word) (i : Instr), decode m w = .ok i →
    match i with
    | .lw _ _ imm | .lh _ _ imm | .lb _ _ imm | .addi _ _ imm | .andi _ _ imm | .ori _ _ imm | .jalr _ _ imm => imm = immI w
    | .beq _ _ imm | .bne _ _ imm | .blt _ _ imm | .bge _ _ imm | .bltu _ _ imm | .bgeu _ _ imm => imm = immB w
    | .lui _ imm | .auipc _ imm => imm = immU w
    | .jal _ imm => imm = immJ w
    | _ => True)

/-- Spec 30 section 2, the S immediate bit by bit, sign-extended (D8, log 12, the spec's own choice), its range, and the
instructions that use it. -/
def Obligations.StoreImmediateIsSignExtended : Prop :=
  (∀ w : Word, fitsImm12 (immS w) = true ∧ ∀ k, k < 32 →
    (immS w).getLsbD k = (if k < 5 then w.getLsbD (7 + k) else if k < 12 then w.getLsbD (20 + k) else w.getLsbD 31)) ∧
  (∀ (m : Bool) (w : Word) (i : Instr), decode m w = .ok i →
    match i with
    | .sw _ _ imm | .sh _ _ imm | .sb _ _ imm => imm = immS w
    | _ => True)

/-- Decoding the word of a well-formed instruction that the option admits gives the instruction back, whatever its operands. The
selector values are the standard RISC-V ones (log 5). The store offset is sign-extended (D8, log 12). -/
def Obligations.DecodeOfEncodeIsTheInstruction : Prop :=
  ∀ (m : Bool) (i : Instr), i.wellFormed = true → i.present m = true → decode m (encode i) = .ok i

/-- A word that decodes is the word of its instruction, which is well-formed and present: no implemented instruction has a bit the
decoder ignores, and no two words decode to one instruction (the spec derives it). That `funct3` is tested for ADD, SUB and JALR is
the spec's own choice (D2, D3, log 6), so is the signed store offset (D8, log 12); selectors: D1, log 5. -/
def Obligations.EncodeOfDecodeIsTheWord : Prop :=
  ∀ (m : Bool) (w : Word) (i : Instr), decode m w = .ok i → encode i = w ∧ i.wellFormed = true ∧ i.present m = true

/-- The decoder and spec/opcode_table.json agree (selector values: log 5): a word that decodes lies in its instruction's row, and a
word of a row whose option is present decodes to that row's instruction. The table's `funct3` of ADD, SUB and JALR is the spec's own
choice (D2, D3, log 6). -/
def Obligations.DecoderAgreesWithTheOpcodeTable : Prop :=
  (∀ (m : Bool) (w : Word) (i : Instr), decode m w = .ok i → rowOf i ∈ opcodeTable ∧ w &&& (rowOf i).mask = (rowOf i).pattern) ∧
  (∀ (m : Bool) (w : Word), ∀ row ∈ opcodeTable, (row.needsMulDiv = true → m = true) → w &&& row.mask = row.pattern →
    ∃ i, decode m w = .ok i ∧ rowOf i = row)

/-- Spec 60 section 1, the payload of a decode fault (the order is the spec's own choice D4, log 7): the first failing test of
opcode, then under OP funct7, then funct3, and that field's unsigned value. The opcode and `funct7` values are presumed (D1, log 5);
that `funct3` is tested for ADD, SUB and JALR is D2, D3, log 6. -/
def Obligations.DecodeFaultNamesTheFirstFailingField : Prop :=
  ∀ (m : Bool) (w : Word) (d : DecodeFault), decode m w = .error d →
    d = if opcodeOf w ∉ [0x33#7, 0x03#7, 0x13#7, 0x23#7, 0x37#7, 0x17#7, 0x6F#7, 0x67#7, 0x63#7] then
          ⟨.opcode, (opcodeOf w).toNat⟩
        else if opcodeOf w = 0x33#7 ∧ funct7Of w ≠ 0x00#7 ∧ funct7Of w ≠ 0x20#7 ∧ ¬ (funct7Of w = 0x01#7 ∧ m = true) then
          ⟨.funct7, (funct7Of w).toNat⟩
        else ⟨.funct3, (funct3Of w).toNat⟩

/-- Spec 41 and spec 44, the absent operations: under OP with the `funct7` of ADD or SUB every other `funct3` faults (that it is
tested is the spec's own choice D2, log 6), and under OP-IMM the five other `funct3` values fault, each reporting the `funct3` (D4,
log 7; selector values D1, log 5). -/
def Obligations.AbsentIntegerFormsFault : Prop :=
  (∀ (m : Bool) (w : Word), opcodeOf w = 0b0110011#7 → funct7Of w = 0b0000000#7 ∨ funct7Of w = 0b0100000#7 →
    funct3Of w ≠ 0b000#3 → decode m w = .error ⟨.funct3, (funct3Of w).toNat⟩) ∧
  (∀ (m : Bool) (w : Word), opcodeOf w = 0b0010011#7 →
    funct3Of w ∈ [0b001#3, 0b010#3, 0b011#3, 0b100#3, 0b101#3] → decode m w = .error ⟨.funct3, (funct3Of w).toNat⟩) ∧
  (∀ m, decode m 0x0020F1B3#32 = .error ⟨.funct3, 7⟩ ∧ decode m 0x0010C193#32 = .error ⟨.funct3, 4⟩)

/-- Spec 42, the option: without it every word with `funct7 = 0b0000001` under OP is `DecodeFault(funct7, 1)`; with it the six
`funct3` values other than MUL's and DIV's fault. Which field is reported is the spec's own choice (D4, log 7), the selector values
are presumed (D1, log 5). -/
def Obligations.MulDivExistOnlyWithTheOption : Prop :=
  (∀ w : Word, opcodeOf w = 0b0110011#7 → funct7Of w = 0b0000001#7 → decode false w = .error ⟨.funct7, 1⟩) ∧
  (∀ w : Word, opcodeOf w = 0b0110011#7 → funct7Of w = 0b0000001#7 → funct3Of w ≠ 0b000#3 → funct3Of w ≠ 0b100#3 →
    decode true w = .error ⟨.funct3, (funct3Of w).toNat⟩)

/-- Spec 30 section 3: LUI, AUIPC and JAL are selected by `opcode` alone; no bit pattern under these opcodes faults. The three
opcode values are presumed (D1, log 5). -/
def Obligations.UpperImmediatesAndJalNeverFault : Prop :=
  ∀ (m : Bool) (w : Word),
    (opcodeOf w = 0b0110111#7 → decode m w = .ok (.lui (rdOf w) (immU w))) ∧
    (opcodeOf w = 0b0010111#7 → decode m w = .ok (.auipc (rdOf w) (immU w))) ∧
    (opcodeOf w = 0b1101111#7 → decode m w = .ok (.jal (rdOf w) (immJ w)))

/-- Words of spec 41, 42, 44 to 48 and of spec 95 parts B1, B2 and C3 decode as they say there (selector values: D1, log 5). The SW
word's offset is sign-extended (D8, log 12), the fault payloads follow D4, log 7. -/
def Obligations.WordsOfTheSpecDecode : Prop :=
  decode true 0x002081B3#32 = .ok (.add 3 1 2) ∧ decode true 0x402081B3#32 = .ok (.sub 3 1 2) ∧
  decode true 0x022081B3#32 = .ok (.mul 3 1 2) ∧ decode true 0x0220C1B3#32 = .ok (.div 3 1 2) ∧
  decode true 0xFFF0A183#32 = .ok (.lw 3 1 0xFFFFFFFF#32) ∧ decode true 0xFFF08193#32 = .ok (.addi 3 1 0xFFFFFFFF#32) ∧
  decode true 0xFE20AFA3#32 = .ok (.sw 2 1 0xFFFFFFFF#32) ∧ decode true 0x123452B7#32 = .ok (.lui 5 0x12345000#32) ∧
  decode true 0xFFFFF06F#32 = .ok (.jal 0 0xFFFFFFFE#32) ∧ decode true 0x003280E7#32 = .ok (.jalr 1 5 3#32) ∧
  decode true 0xFE009FE3#32 = .ok (.bne 1 0 0xFFFFFFFE#32) ∧ decode true 0x002080E3#32 = .ok (.beq 1 2 2048#32) ∧
  decode true 0x00000000#32 = .error ⟨.opcode, 0⟩ ∧ decode true 0xFFFFFFFF#32 = .error ⟨.opcode, 127⟩ ∧
  decode true 0x00000073#32 = .error ⟨.opcode, 115⟩ ∧ decode true 0x0FF0000F#32 = .error ⟨.opcode, 15⟩

/-! ## The loop -/

/-- A step runs the decoded instruction: when the engine is running, `pc` is below the bound and the fetched word decodes to `i`,
the step is `exec i`, with nothing added around it. The loop test comes first and is signed (D24, log 18; D10, log 10). -/
def Obligations.StepRunsTheDecodedInstruction : Prop :=
  ∀ (s : State) (i : Instr), AboutToExecute s i → step s = exec i s

/-- The steps that run no instruction: at or past the bound `status` becomes Halted (D10, D24, logs 10, 18); a word that does not
decode is a fault taken with nothing else changed (D14, log 14); a machine that is not running stays as it is (log 16). -/
def Obligations.StepsThatRunNoInstruction : Prop :=
  ∀ s : State,
    (s.status = .running → s.instructionCount.toInt ≤ s.pc.toInt → step s = .next { s with status := .halted }) ∧
    (∀ w d, s.status = .running → s.pc.toInt < s.instructionCount.toInt → s.fetch = .ok w →
      decode s.config.hasMulDiv w = .error d → step s = .next (tookFault s (.decode d))) ∧
    (s.status ≠ .running → step s = .next s)

/-- A step answers a next state exactly when it is safe, that is when its accesses stay in the array; it never refuses, and its only
stop is `OutOfRange` of an access outside the array (D11, log 4). A load with `rd = 0` still makes its access (D25, log 19); the
loop test is D24 and D10 (logs 18, 10). -/
def Obligations.StepStopsExactlyOutsideTheArray : Prop :=
  ∀ s : State,
    ((∃ t, step s = .next t) ↔ SafeStep s) ∧
    (∀ f, step s = .fault f → ∃ addr, f = .outOfRange addr.toInt ∧ ¬ InArray s addr ∧
      (addr = s.pc ∨ ∃ i, AboutToExecute s i ∧ dataAddress i s = some addr)) ∧
    (∀ r, step s ≠ .refused r)

/-- Spec 60 section 1: faults are precise. When a running machine's step records a fault, nothing but `status` has changed (that
`pc` stays is the spec's own reading D14, log 14). -/
def Obligations.FaultsArePrecise : Prop :=
  ∀ (s t : State) (f : HwFault), s.status = .running → step s = .next t → t.status = .faulted f → t = tookFault s f

/-- Spec 60 section 1: a step of a running machine ends in ArithmeticFault exactly when it executes DIV with a zero divisor, which
needs the option; it then writes no register and no cell, and `pc` stays at the DIV (the spec's own reading D14, log 14). DIV with
`rd = 0` still tests its divisor (D25, log 19). -/
def Obligations.ArithmeticFaultIsDivisionByZeroOnly : Prop :=
  ∀ s t : State, s.status = .running → step s = .next t →
    (t.status = .faulted .arithmetic ↔ ∃ rd rs1 rs2, AboutToExecute s (.div rd rs1 rs2) ∧ s.readReg rs2 = 0#32) ∧
    (t.status = .faulted .arithmetic → s.config.hasMulDiv = true ∧ t = tookFault s .arithmetic)

/-- Spec 60 section 1, spec 40 section 3: a run goes on unless its bound is reached, its word does not decode, or DIV divides by
zero; an ended run stays ended under every further step (log 16). The bound is compared as a signed number, before every fetch (D10,
log 10; D24, log 18); DIV with `rd = 0` still tests its divisor (D25, log 19). -/
def Obligations.RunEndsOnlyAtTheBoundOrOnAFault : Prop :=
  ∀ s t : State, s.status = .running → step s = .next t →
    (t.status = .running ∨
      (t.status = .halted ∧ s.instructionCount.toInt ≤ s.pc.toInt) ∨
      (∃ w d, t.status = .faulted (.decode d) ∧ s.fetch = .ok w ∧ decode s.config.hasMulDiv w = .error d) ∨
      (t.status = .faulted .arithmetic ∧ ∃ rd rs1 rs2, AboutToExecute s (.div rd rs1 rs2) ∧ s.readReg rs2 = 0#32)) ∧
    (t.status ≠ .running → ∀ k, Host.Core.run Sys2Proof.core k t = .next t)

/-- Spec 10 section 3, the bound, and section 1, the parameters: no step changes either, nor the load's record (log 27), and no
instruction reads the bound. -/
def Obligations.BoundAndParametersAreFixedInARun : Prop :=
  (∀ s t : State, step s = .next t →
    t.instructionCount = s.instructionCount ∧ t.config = s.config ∧ t.loaded = s.loaded) ∧
  (∀ (i : Instr) (s : State) (n : Word), exec i (s.setCount n) =
    match exec i s with
    | .next t => .next (t.setCount n)
    | .fault f => .fault f
    | .refused r => .refused r)

/-- Spec 40 section 2 (Advance), spec 10 section 3, spec 47: every instruction that completes changes `pc` exactly once: JAL and
JALR to their target, a branch to its target or to `pc + 1`, every other instruction to `pc + 1`. JALR's target is the old `x[rs1]`
plus the offset, bit 0 kept (the spec's own choices D9, D19, logs 13, 17); the sums wrap (D6, log 8). -/
def Obligations.EachInstructionSetsPcOnce : Prop :=
  ∀ (i : Instr) (s t : State), s.status = .running → exec i s = .next t → t.status = .running →
    match i with
    | .jal _ imm => t.pc = s.pc + imm
    | .jalr _ rs1 imm => t.pc = s.readReg rs1 + imm
    | _ => if isBranch i = true then ∃ imm, relativeOffset i = some imm ∧ (t.pc = s.pc + imm ∨ t.pc = s.pc + 1#32)
           else t.pc = s.pc + 1#32

/-- Spec 70 section 3, the parity limit (the spec derives it): a step that executes JAL or a branch moves `pc` by an even number of
cells, except that a branch not taken moves it by one. The sums wrap (D6, log 8). -/
def Obligations.RelativeTransfersKeepParity : Prop :=
  ∀ (s t : State) (i : Instr), AboutToExecute s i → relativeOffset i ≠ none → step s = .next t →
    (t.pc - s.pc).toNat % 2 = 0 ∨ (isBranch i = true ∧ t.pc = s.pc + 1#32)

/-- Spec 40 section 3 (the spec derives it): a running machine whose fetched word is `jal x0, 0` stays as it is for ever. The word
0x0000006F is `jal x0, 0` by the presumed opcode value (D1, log 5); the loop test is D10 and D24 (logs 10, 18). -/
def Obligations.JumpToItselfNeverEnds : Prop :=
  ∀ s : State, s.status = .running → fetchAllowed s = true → s.fetch = .ok 0x0000006F#32 →
    ∀ k, Host.Core.run Sys2Proof.core k s = .next s

/-! ## The host -/

/-- Spec 50 sections 1 and 2: the load writes the words to cells 0 to n - 1 and fixes the bound, records itself (log 27), and touches
nothing else; a longer program than the memory is refused (the spec's own choice D18, log 15). It is defined once per reset, before
`execute()`: hence the first two premises. -/
def Obligations.LoadPlacesTheProgram : Prop :=
  ∀ (ws : List Word) (s : State), s.status = .idle → s.loaded = false →
    (ws.length ≤ s.config.memWords → ∃ t, hostLoad ws s = .next t ∧
      (∀ (k : Nat) (h : k < ws.length), cellAt t.mem k = ws[k]) ∧
      (∀ a, ws.length ≤ a → cellAt t.mem a = cellAt s.mem a) ∧
      t.instructionCount = BitVec.ofNat 32 ws.length ∧ t.pc = s.pc ∧ t.regs = s.regs ∧ t.status = s.status ∧
      t.config = s.config ∧ t.loaded = true) ∧
    (s.config.memWords < ws.length → hostLoad ws s = .refused (.hostProgramTooLong ws.length))

/-- Spec 50 R202 to R205: the peeks return the register or the whole cell, the pokes perform the one write and change nothing
else, while the engine is not running. -/
def Obligations.PeeksAndPokesActOnOnePlace : Prop :=
  ∀ s : State, s.status ≠ .running →
    (∀ n, n < 32 → hostReadRegister n s = .ok (s.readReg (BitVec.ofNat 5 n))) ∧
    (∀ n v, n < 32 → ∃ t, hostWriteRegister n v s = .next t ∧ t = s.writeReg (BitVec.ofNat 5 n) v ∧
      OnlyRegAndPc s t (BitVec.ofNat 5 n) v s.pc) ∧
    (∀ a, a < s.config.memWords → hostReadMemory a s = .ok (cellAt s.mem a)) ∧
    (∀ a v, a < s.config.memWords → ∃ t, hostWriteMemory a v s = .next t ∧ OnlyCellAndPc s t a v s.pc)

/-- Spec 50 sections 1 and 2: what the host is refused (D16, D17, D18, log 15): every load, peek, poke and start during
a run (the two status reads and reset are not refused, log 29), an index or address
outside its domain (a natural number, log 28), a second load (log 27), and a load or a start after a run. -/
def Obligations.HostOperationsOutsideTheirDomainAreRefused : Prop :=
  ∀ s : State,
    (s.status = .running → (∀ ws, hostLoad ws s = .refused .hostWhileRunning) ∧
      (∀ n, hostReadRegister n s = .error .hostWhileRunning) ∧ (∀ n v, hostWriteRegister n v s = .refused .hostWhileRunning) ∧
      (∀ a, hostReadMemory a s = .error .hostWhileRunning) ∧ (∀ a v, hostWriteMemory a v s = .refused .hostWhileRunning) ∧
      hostStart s = .refused .hostWhileRunning) ∧
    (s.status ≠ .running → (∀ n, 32 ≤ n → hostReadRegister n s = .error (.hostRegisterIndex n) ∧
        ∀ v, hostWriteRegister n v s = .refused (.hostRegisterIndex n)) ∧
      (∀ a, s.config.memWords ≤ a → hostReadMemory a s = .error (.hostAddress a) ∧
        ∀ v, hostWriteMemory a v s = .refused (.hostAddress a))) ∧
    (s.status = .idle → s.loaded = true → ∀ ws, hostLoad ws s = .refused .hostOncePerReset) ∧
    (s.status = .halted ∨ (∃ f, s.status = .faulted f) → (∀ ws, hostLoad ws s = .refused .hostOncePerReset) ∧
      hostStart s = .refused .hostOncePerReset)

/-- `execute()` with nothing loaded halts at once and changes nothing else (D13, D24, logs 11, 18: a claim should load first). -/
def Obligations.ExecuteWithNothingLoadedHalts : Prop :=
  ∀ (c : Config) (fuel : Nat), hostExecute (fuel + 1) (hostReset c) = .next { hostReset c with status := .halted }

/-- Spec 40 section 3, the end of a run: whatever `execute()` answers within any fuel meets the invariant, so that a halted machine
is at or past its bound and a faulted one stands at the instruction that faulted; the bound and the parameters are those it started
with. The loop test is signed (D10, log 10), `pc` stays at a fault (D14, log 14), the fuel is log 26. The invariant's slot 0 and its
record of the load are the model's (logs 20, 27). -/
def Obligations.ExecuteKeepsTheInvariant : Prop :=
  ∀ (fuel : Nat) (s t : State), s.Inv → s.status = .idle → hostExecute fuel s = .next t →
    t.Inv ∧ t.status ≠ .idle ∧ t.instructionCount = s.instructionCount ∧ t.config = s.config

/-! ## The instructions: for every operand, the word decodes to the instruction, and the instruction has the rule's effect and no
other. A docstring names the log entries its statement rests on beside the spec. -/

/-- Spec 41, ADD: the low 32 bits of the exact sum are written (the wrap is D6, log 8; selectors: D1, log 5). -/
def Obligations.AddWritesTheWrappedSum : Prop :=
  ∀ (rd rs1 rs2 : RegIdx) (s : State),
    (∀ m, decode m (formatR 0b0000000#7 rs2 rs1 0b000#3 rd 0b0110011#7) = .ok (.add rd rs1 rs2)) ∧
    ∃ t, exec (.add rd rs1 rs2) s = .next t ∧
      OnlyRegAndPc s t rd (BitVec.ofInt 32 ((s.readReg rs1).toInt + (s.readReg rs2).toInt)) (s.pc + 1#32)

/-- Spec 41, SUB: the low 32 bits of the exact difference `rs1 - rs2` are written (the wrap is D6, log 8; selectors: D1, log 5). -/
def Obligations.SubWritesTheWrappedDifference : Prop :=
  ∀ (rd rs1 rs2 : RegIdx) (s : State),
    (∀ m, decode m (formatR 0b0100000#7 rs2 rs1 0b000#3 rd 0b0110011#7) = .ok (.sub rd rs1 rs2)) ∧
    ∃ t, exec (.sub rd rs1 rs2) s = .next t ∧
      OnlyRegAndPc s t rd (BitVec.ofInt 32 ((s.readReg rs1).toInt - (s.readReg rs2).toInt)) (s.pc + 1#32)

/-- Spec 42, MUL: with the option, the low 32 bits of the exact product (that only these are kept is the spec's own choice D6,
log 8; selectors: D1, log 5). -/
def Obligations.MulWritesTheWrappedProduct : Prop :=
  ∀ (rd rs1 rs2 : RegIdx) (s : State), s.config.hasMulDiv = true →
    decode true (formatR 0b0000001#7 rs2 rs1 0b000#3 rd 0b0110011#7) = .ok (.mul rd rs1 rs2) ∧
    ∃ t, exec (.mul rd rs1 rs2) s = .next t ∧
      OnlyRegAndPc s t rd (BitVec.ofInt 32 ((s.readReg rs1).toInt * (s.readReg rs2).toInt)) (s.pc + 1#32)

/-- Spec 42, DIV: with the option and a divisor other than zero, the signed quotient; with a zero divisor, ArithmeticFault taken and
nothing else changed, whatever `rd` and the dividend are. The quotient's rounding is `QuotientRoundsTowardZero` (D7, log 9; `pc` at
the fault: D14, log 14; selectors: D1, log 5). That DIV with `rd = 0` still tests its divisor and faults is D25, log 19. -/
def Obligations.DivWritesTheQuotientOrFaults : Prop :=
  ∀ (rd rs1 rs2 : RegIdx) (s : State), s.config.hasMulDiv = true →
    decode true (formatR 0b0000001#7 rs2 rs1 0b100#3 rd 0b0110011#7) = .ok (.div rd rs1 rs2) ∧
    (s.readReg rs2 ≠ 0#32 → ∃ t, exec (.div rd rs1 rs2) s = .next t ∧
      OnlyRegAndPc s t rd (sdiv (s.readReg rs1) (s.readReg rs2)) (s.pc + 1#32)) ∧
    (s.readReg rs2 = 0#32 → exec (.div rd rs1 rs2) s = .next (tookFault s .arithmetic))

/-- Spec 42, `sdiv` (its rounding and the overflow case are the spec's own choice D7, log 9): for a divisor other than zero the
remainder is smaller in magnitude than the divisor and has the dividend's sign or is zero; -2^31 by -1 gives -2^31. -/
def Obligations.QuotientRoundsTowardZero : Prop :=
  (∀ a b : Word, b ≠ 0#32 → ¬ (a = 0x80000000#32 ∧ b = 0xFFFFFFFF#32) →
    (a.toInt - (sdiv a b).toInt * b.toInt).natAbs < b.toInt.natAbs ∧
    (0 ≤ a.toInt → 0 ≤ a.toInt - (sdiv a b).toInt * b.toInt) ∧
    (a.toInt ≤ 0 → a.toInt - (sdiv a b).toInt * b.toInt ≤ 0)) ∧
  sdiv 0x80000000#32 0xFFFFFFFF#32 = 0x80000000#32

/-- Spec 43, LW: the whole cell at `x[rs1] + imm_I` is copied; outside the array it is the model's stop (D11, log 4). The address
wraps (D6, log 8; selectors: D1, log 5). With `rd = 0` the access is still made (D25, log 19). -/
def Obligations.LwLoadsTheWholeCell : Prop :=
  ∀ (rd rs1 : RegIdx) (s : State),
    (∀ m (imm : BitVec 12), decode m (formatI imm rs1 0b010#3 rd 0b0000011#7) = .ok (.lw rd rs1 (imm.signExtend 32))) ∧
    ∀ imm : Word,
      (InArray s (effectiveAddress s rs1 imm) → ∃ t, exec (.lw rd rs1 imm) s = .next t ∧
        OnlyRegAndPc s t rd (cellOf s (s.readReg rs1 + imm)) (s.pc + 1#32)) ∧
      (¬ InArray s (effectiveAddress s rs1 imm) →
        exec (.lw rd rs1 imm) s = .fault (.outOfRange (s.readReg rs1 + imm).toInt))

/-- Spec 43, LH and LB: they keep the low 16 and 8 bits of the cell, sign-extended; outside the array they are the model's stop
(D11, log 4). The address wraps (D6, log 8; selectors: D1, log 5). With `rd = 0` the access is still made (D25, log 19). -/
def Obligations.LhAndLbLoadTheLowBitsSignExtended : Prop :=
  ∀ (rd rs1 : RegIdx) (s : State),
    (∀ m (imm : BitVec 12), decode m (formatI imm rs1 0b001#3 rd 0b0000011#7) = .ok (.lh rd rs1 (imm.signExtend 32)) ∧
      decode m (formatI imm rs1 0b000#3 rd 0b0000011#7) = .ok (.lb rd rs1 (imm.signExtend 32))) ∧
    ∀ imm : Word,
      (InArray s (effectiveAddress s rs1 imm) →
        (∃ t, exec (.lh rd rs1 imm) s = .next t ∧
          OnlyRegAndPc s t rd (((cellOf s (s.readReg rs1 + imm)).setWidth 16).signExtend 32) (s.pc + 1#32)) ∧
        (∃ t, exec (.lb rd rs1 imm) s = .next t ∧
          OnlyRegAndPc s t rd (((cellOf s (s.readReg rs1 + imm)).setWidth 8).signExtend 32) (s.pc + 1#32))) ∧
      (¬ InArray s (effectiveAddress s rs1 imm) →
        exec (.lh rd rs1 imm) s = .fault (.outOfRange (s.readReg rs1 + imm).toInt) ∧
        exec (.lb rd rs1 imm) s = .fault (.outOfRange (s.readReg rs1 + imm).toInt))

/-- Spec 44, ADDI: the low 32 bits of the exact sum of the register and the immediate are written (the wrap is D6, log 8;
selectors: D1, log 5). -/
def Obligations.AddiAddsTheImmediate : Prop :=
  ∀ (rd rs1 : RegIdx) (s : State),
    (∀ m (imm : BitVec 12), decode m (formatI imm rs1 0b000#3 rd 0b0010011#7) = .ok (.addi rd rs1 (imm.signExtend 32))) ∧
    ∀ imm : Word, ∃ t, exec (.addi rd rs1 imm) s = .next t ∧
      OnlyRegAndPc s t rd (BitVec.ofInt 32 ((s.readReg rs1).toInt + imm.toInt)) (s.pc + 1#32)

/-- Spec 44, ANDI and ORI: they combine the register with the sign-extended immediate, bit by bit (selectors: D1, log 5). -/
def Obligations.AndiAndOriCombineBitwise : Prop :=
  ∀ (rd rs1 : RegIdx) (s : State),
    (∀ m (imm : BitVec 12), decode m (formatI imm rs1 0b111#3 rd 0b0010011#7) = .ok (.andi rd rs1 (imm.signExtend 32)) ∧
      decode m (formatI imm rs1 0b110#3 rd 0b0010011#7) = .ok (.ori rd rs1 (imm.signExtend 32))) ∧
    ∀ imm : Word,
      (∃ t, exec (.andi rd rs1 imm) s = .next t ∧ OnlyRegAndPc s t rd (s.readReg rs1 &&& imm) (s.pc + 1#32)) ∧
      (∃ t, exec (.ori rd rs1 imm) s = .next t ∧ OnlyRegAndPc s t rd (s.readReg rs1 ||| imm) (s.pc + 1#32))

/-- Spec 45, SW: the cell at `x[rs1] + imm_S` is replaced by `x[rs2]`; outside the array it is the model's stop (D11, log 4). The
offset is sign-extended (D8, log 12), the address wraps (D6, log 8; selectors: D1, log 5). -/
def Obligations.SwStoresTheWholeRegister : Prop :=
  ∀ (rs2 rs1 : RegIdx) (s : State),
    (∀ m (imm : BitVec 12), decode m (formatS imm rs2 rs1 0b010#3 0b0100011#7) = .ok (.sw rs2 rs1 (imm.signExtend 32))) ∧
    ∀ imm : Word,
      (InArray s (effectiveAddress s rs1 imm) → ∃ t, exec (.sw rs2 rs1 imm) s = .next t ∧
        OnlyCellAndPc s t (s.readReg rs1 + imm).toInt.toNat (s.readReg rs2) (s.pc + 1#32)) ∧
      (¬ InArray s (effectiveAddress s rs1 imm) →
        exec (.sw rs2 rs1 imm) s = .fault (.outOfRange (s.readReg rs1 + imm).toInt))

/-- Spec 45, SH and SB: they replace the whole cell by the low 16 and 8 bits of `x[rs2]`, zeros above; outside the array they
are the model's stop (D11, log 4). The offset is sign-extended (D8, log 12), the address wraps (D6, log 8; selectors: D1, log 5). -/
def Obligations.ShAndSbStoreTheLowBitsZeroExtended : Prop :=
  ∀ (rs2 rs1 : RegIdx) (s : State),
    (∀ m (imm : BitVec 12), decode m (formatS imm rs2 rs1 0b001#3 0b0100011#7) = .ok (.sh rs2 rs1 (imm.signExtend 32)) ∧
      decode m (formatS imm rs2 rs1 0b000#3 0b0100011#7) = .ok (.sb rs2 rs1 (imm.signExtend 32))) ∧
    ∀ imm : Word,
      (InArray s (effectiveAddress s rs1 imm) →
        (∃ t, exec (.sh rs2 rs1 imm) s = .next t ∧
          OnlyCellAndPc s t (s.readReg rs1 + imm).toInt.toNat (s.readReg rs2 &&& 0x0000FFFF#32) (s.pc + 1#32)) ∧
        (∃ t, exec (.sb rs2 rs1 imm) s = .next t ∧
          OnlyCellAndPc s t (s.readReg rs1 + imm).toInt.toNat (s.readReg rs2 &&& 0x000000FF#32) (s.pc + 1#32))) ∧
      (¬ InArray s (effectiveAddress s rs1 imm) →
        exec (.sh rs2 rs1 imm) s = .fault (.outOfRange (s.readReg rs1 + imm).toInt) ∧
        exec (.sb rs2 rs1 imm) s = .fault (.outOfRange (s.readReg rs1 + imm).toInt))

/-- Spec 46: LUI writes the upper immediate, whatever `pc` is; AUIPC writes the upper immediate plus its own word index, the sum
wrapping (D6, log 8; selectors: D1, log 5). -/
def Obligations.LuiAndAuipcWriteTheUpperImmediate : Prop :=
  ∀ (rd : RegIdx) (s : State),
    (∀ m (f : BitVec 20), decode m (formatU f rd 0b0110111#7) = .ok (.lui rd (f ++ 0#12)) ∧
      decode m (formatU f rd 0b0010111#7) = .ok (.auipc rd (f ++ 0#12))) ∧
    ∀ imm : Word,
      (∃ t, exec (.lui rd imm) s = .next t ∧ OnlyRegAndPc s t rd imm (s.pc + 1#32)) ∧
      (∃ t, exec (.auipc rd imm) s = .next t ∧ OnlyRegAndPc s t rd (imm + s.pc) (s.pc + 1#32))

/-- Spec 47, JAL: it links to the next word index and jumps by the unscaled offset, relative to itself, link and target wrapping
(D6, log 8; selectors: D1, log 5). -/
def Obligations.JalLinksAndJumpsRelative : Prop :=
  ∀ (rd : RegIdx) (s : State),
    (∀ m (f : BitVec 20), decode m (formatJ (f ++ 0#1) rd 0b1101111#7) = .ok (.jal rd ((f ++ 0#1).signExtend 32))) ∧
    ∀ imm : Word, ∃ t, exec (.jal rd imm) s = .next t ∧ OnlyRegAndPc s t rd (s.pc + 1#32) (s.pc + imm)

/-- Spec 47, JALR: links and jumps to the old `x[rs1]` plus the offset, bit 0 kept (D9, D19, logs 13, 17); a `funct3` other than 0
does not decode (D3, log 6). Link and target wrap (D6, log 8; selectors: D1, log 5). -/
def Obligations.JalrLinksAndJumpsAbsolute : Prop :=
  ∀ (rd rs1 : RegIdx) (s : State),
    (∀ m (imm : BitVec 12), decode m (formatI imm rs1 0b000#3 rd 0b1100111#7) = .ok (.jalr rd rs1 (imm.signExtend 32)) ∧
      ∀ f3, f3 ≠ 0b000#3 → decode m (formatI imm rs1 f3 rd 0b1100111#7) = .error ⟨.funct3, f3.toNat⟩) ∧
    ∀ imm : Word, ∃ t, exec (.jalr rd rs1 imm) s = .next t ∧
      OnlyRegAndPc s t rd (s.pc + 1#32) (s.readReg rs1 + imm)

/-- Spec 48: BEQ and BNE compare all 32 bits. BNE's condition is presumed (G3, log 21; target wraps: D6, log 8; selectors: D1,
log 5). -/
def Obligations.BeqAndBneBranchOnEquality : Prop :=
  ∀ (rs1 rs2 : RegIdx) (s : State),
    (∀ m (f : BitVec 12),
      decode m (formatB (f ++ 0#1) rs2 rs1 0b000#3 0b1100011#7) = .ok (.beq rs1 rs2 ((f ++ 0#1).signExtend 32)) ∧
      decode m (formatB (f ++ 0#1) rs2 rs1 0b001#3 0b1100011#7) = .ok (.bne rs1 rs2 ((f ++ 0#1).signExtend 32))) ∧
    ∀ imm : Word,
      (∃ t, exec (.beq rs1 rs2 imm) s = .next t ∧
        OnlyPc s t (if s.readReg rs1 = s.readReg rs2 then s.pc + imm else s.pc + 1#32)) ∧
      (∃ t, exec (.bne rs1 rs2 imm) s = .next t ∧
        OnlyPc s t (if s.readReg rs1 ≠ s.readReg rs2 then s.pc + imm else s.pc + 1#32))

/-- Spec 48: BLT and BGE compare the signed values, not the sign of their difference. Both conditions are presumed (G3, log 21;
target wraps: D6, log 8; selectors: D1, log 5). -/
def Obligations.BltAndBgeBranchOnSignedOrder : Prop :=
  ∀ (rs1 rs2 : RegIdx) (s : State),
    (∀ m (f : BitVec 12),
      decode m (formatB (f ++ 0#1) rs2 rs1 0b100#3 0b1100011#7) = .ok (.blt rs1 rs2 ((f ++ 0#1).signExtend 32)) ∧
      decode m (formatB (f ++ 0#1) rs2 rs1 0b101#3 0b1100011#7) = .ok (.bge rs1 rs2 ((f ++ 0#1).signExtend 32))) ∧
    ∀ imm : Word,
      (∃ t, exec (.blt rs1 rs2 imm) s = .next t ∧
        OnlyPc s t (if (s.readReg rs1).toInt < (s.readReg rs2).toInt then s.pc + imm else s.pc + 1#32)) ∧
      (∃ t, exec (.bge rs1 rs2 imm) s = .next t ∧
        OnlyPc s t (if (s.readReg rs2).toInt ≤ (s.readReg rs1).toInt then s.pc + imm else s.pc + 1#32))

/-- Spec 48: BLTU and BGEU compare the unsigned values. That they do is the source's; their exact conditions are presumed (G3,
log 21; target wraps: D6, log 8; selectors: D1, log 5). -/
def Obligations.BltuAndBgeuBranchOnUnsignedOrder : Prop :=
  ∀ (rs1 rs2 : RegIdx) (s : State),
    (∀ m (f : BitVec 12),
      decode m (formatB (f ++ 0#1) rs2 rs1 0b110#3 0b1100011#7) = .ok (.bltu rs1 rs2 ((f ++ 0#1).signExtend 32)) ∧
      decode m (formatB (f ++ 0#1) rs2 rs1 0b111#3 0b1100011#7) = .ok (.bgeu rs1 rs2 ((f ++ 0#1).signExtend 32))) ∧
    ∀ imm : Word,
      (∃ t, exec (.bltu rs1 rs2 imm) s = .next t ∧
        OnlyPc s t (if (s.readReg rs1).toNat < (s.readReg rs2).toNat then s.pc + imm else s.pc + 1#32)) ∧
      (∃ t, exec (.bgeu rs1 rs2 imm) s = .next t ∧
        OnlyPc s t (if (s.readReg rs2).toNat ≤ (s.readReg rs1).toNat then s.pc + imm else s.pc + 1#32))

/-! ## One load and one run per reset -/

/-- Spec 50 section 2: one load and one run per reset (D16, log 15; the record of the load is the model's, log 27). Once a load has
been done, of whatever length, every later load is refused, also after a poke; a start is accepted from `Idle`; and after
`execute()` neither a load nor a second start is. During a run, such as one the fuel cut short, both are refused too (D17, log 15;
fuel: log 26). -/
def Obligations.OneLoadAndOneRunPerReset : Prop :=
  ∀ s : State,
    (∀ ws t, hostLoad ws s = .next t → (∀ ws', hostLoad ws' t = .refused .hostOncePerReset) ∧
      (∀ n v u, hostWriteRegister n v t = .next u → ∀ ws', hostLoad ws' u = .refused .hostOncePerReset) ∧
      (∀ a v u, hostWriteMemory a v t = .next u → ∀ ws', hostLoad ws' u = .refused .hostOncePerReset)) ∧
    (s.status = .idle → hostStart s = .next { s with status := .running }) ∧
    (∀ fuel t, hostExecute fuel s = .next t → (∀ ws, ∃ r, hostLoad ws t = .refused r) ∧ ∃ r, hostStart t = .refused r)

/-! ## Runs that never end -/

/-- Spec 40 section 3 (the spec derives it): a machine about to execute JAL with `rd = 0` and offset 0, or a branch with offset 0
whose condition holds, stays as it is under any number of steps. The conditions of the branches but BEQ's are presumed (G3, log
21); the loop test is D10 and D24 (logs 10, 18). -/
def Obligations.ZeroOffsetTransfersNeverEnd : Prop :=
  ∀ (s : State) (i : Instr), AboutToExecute s i →
    (i = .jal 0#5 0#32 ∨ ∃ rs1 rs2 : RegIdx,
      (i = .beq rs1 rs2 0#32 ∧ s.readReg rs1 = s.readReg rs2) ∨
      (i = .bne rs1 rs2 0#32 ∧ s.readReg rs1 ≠ s.readReg rs2) ∨
      (i = .blt rs1 rs2 0#32 ∧ (s.readReg rs1).toInt < (s.readReg rs2).toInt) ∨
      (i = .bge rs1 rs2 0#32 ∧ (s.readReg rs2).toInt ≤ (s.readReg rs1).toInt) ∨
      (i = .bltu rs1 rs2 0#32 ∧ (s.readReg rs1).toNat < (s.readReg rs2).toNat) ∨
      (i = .bgeu rs1 rs2 0#32 ∧ (s.readReg rs2).toNat ≤ (s.readReg rs1).toNat)) →
    ∀ k, Host.Core.run Sys2Proof.core k s = .next s
end

