-- ==== Sys2Proof/Laws/Encoding.lean ====
section
/-! SUPPORT. What the decoder's fields read from a word of each format (spec 30 R81 to R87): one lemma per field and format,
bit by bit. -/

namespace Sys2Proof

@[simp] theorem opcodeOf_formatR (f7 : BitVec 7) (rs2 rs1 : RegIdx) (f3 : BitVec 3) (rd : RegIdx) (op : BitVec 7) :
    opcodeOf (formatR f7 rs2 rs1 f3 rd op) = op := by
  refine BitVec.eq_of_getLsbD_eq fun k hk => ?_
  simp only [opcodeOf, formatR, BitVec.getLsbD_extractLsb', BitVec.getLsbD_append]
  interval_cases k <;> simp

@[simp] theorem rdOf_formatR (f7 : BitVec 7) (rs2 rs1 : RegIdx) (f3 : BitVec 3) (rd : RegIdx) (op : BitVec 7) :
    rdOf (formatR f7 rs2 rs1 f3 rd op) = rd := by
  refine BitVec.eq_of_getLsbD_eq fun k hk => ?_
  simp only [rdOf, formatR, BitVec.getLsbD_extractLsb', BitVec.getLsbD_append]
  interval_cases k <;> simp

@[simp] theorem funct3Of_formatR (f7 : BitVec 7) (rs2 rs1 : RegIdx) (f3 : BitVec 3) (rd : RegIdx) (op : BitVec 7) :
    funct3Of (formatR f7 rs2 rs1 f3 rd op) = f3 := by
  refine BitVec.eq_of_getLsbD_eq fun k hk => ?_
  simp only [funct3Of, formatR, BitVec.getLsbD_extractLsb', BitVec.getLsbD_append]
  interval_cases k <;> simp

@[simp] theorem rs1Of_formatR (f7 : BitVec 7) (rs2 rs1 : RegIdx) (f3 : BitVec 3) (rd : RegIdx) (op : BitVec 7) :
    rs1Of (formatR f7 rs2 rs1 f3 rd op) = rs1 := by
  refine BitVec.eq_of_getLsbD_eq fun k hk => ?_
  simp only [rs1Of, formatR, BitVec.getLsbD_extractLsb', BitVec.getLsbD_append]
  interval_cases k <;> simp

@[simp] theorem rs2Of_formatR (f7 : BitVec 7) (rs2 rs1 : RegIdx) (f3 : BitVec 3) (rd : RegIdx) (op : BitVec 7) :
    rs2Of (formatR f7 rs2 rs1 f3 rd op) = rs2 := by
  refine BitVec.eq_of_getLsbD_eq fun k hk => ?_
  simp only [rs2Of, formatR, BitVec.getLsbD_extractLsb', BitVec.getLsbD_append]
  interval_cases k <;> simp

@[simp] theorem funct7Of_formatR (f7 : BitVec 7) (rs2 rs1 : RegIdx) (f3 : BitVec 3) (rd : RegIdx) (op : BitVec 7) :
    funct7Of (formatR f7 rs2 rs1 f3 rd op) = f7 := by
  refine BitVec.eq_of_getLsbD_eq fun k hk => ?_
  simp only [funct7Of, formatR, BitVec.getLsbD_extractLsb', BitVec.getLsbD_append]
  interval_cases k <;> simp

@[simp] theorem opcodeOf_formatI (imm : BitVec 12) (rs1 : RegIdx) (f3 : BitVec 3) (rd : RegIdx) (op : BitVec 7) :
    opcodeOf (formatI imm rs1 f3 rd op) = op := by
  refine BitVec.eq_of_getLsbD_eq fun k hk => ?_
  simp only [opcodeOf, formatI, BitVec.getLsbD_extractLsb', BitVec.getLsbD_append]
  interval_cases k <;> simp

@[simp] theorem rdOf_formatI (imm : BitVec 12) (rs1 : RegIdx) (f3 : BitVec 3) (rd : RegIdx) (op : BitVec 7) :
    rdOf (formatI imm rs1 f3 rd op) = rd := by
  refine BitVec.eq_of_getLsbD_eq fun k hk => ?_
  simp only [rdOf, formatI, BitVec.getLsbD_extractLsb', BitVec.getLsbD_append]
  interval_cases k <;> simp

@[simp] theorem funct3Of_formatI (imm : BitVec 12) (rs1 : RegIdx) (f3 : BitVec 3) (rd : RegIdx) (op : BitVec 7) :
    funct3Of (formatI imm rs1 f3 rd op) = f3 := by
  refine BitVec.eq_of_getLsbD_eq fun k hk => ?_
  simp only [funct3Of, formatI, BitVec.getLsbD_extractLsb', BitVec.getLsbD_append]
  interval_cases k <;> simp

@[simp] theorem rs1Of_formatI (imm : BitVec 12) (rs1 : RegIdx) (f3 : BitVec 3) (rd : RegIdx) (op : BitVec 7) :
    rs1Of (formatI imm rs1 f3 rd op) = rs1 := by
  refine BitVec.eq_of_getLsbD_eq fun k hk => ?_
  simp only [rs1Of, formatI, BitVec.getLsbD_extractLsb', BitVec.getLsbD_append]
  interval_cases k <;> simp

@[simp] theorem immI_formatI (imm : BitVec 12) (rs1 : RegIdx) (f3 : BitVec 3) (rd : RegIdx) (op : BitVec 7) :
    immI (formatI imm rs1 f3 rd op) = imm.signExtend 32 := by
  unfold immI
  congr 1
  refine BitVec.eq_of_getLsbD_eq fun k hk => ?_
  simp only [formatI, BitVec.getLsbD_extractLsb', BitVec.getLsbD_append]
  interval_cases k <;> simp

@[simp] theorem opcodeOf_formatS (imm : BitVec 12) (rs2 rs1 : RegIdx) (f3 : BitVec 3) (op : BitVec 7) :
    opcodeOf (formatS imm rs2 rs1 f3 op) = op := by
  refine BitVec.eq_of_getLsbD_eq fun k hk => ?_
  simp only [opcodeOf, formatS, BitVec.getLsbD_extractLsb', BitVec.getLsbD_append]
  interval_cases k <;> simp

@[simp] theorem funct3Of_formatS (imm : BitVec 12) (rs2 rs1 : RegIdx) (f3 : BitVec 3) (op : BitVec 7) :
    funct3Of (formatS imm rs2 rs1 f3 op) = f3 := by
  refine BitVec.eq_of_getLsbD_eq fun k hk => ?_
  simp only [funct3Of, formatS, BitVec.getLsbD_extractLsb', BitVec.getLsbD_append]
  interval_cases k <;> simp

@[simp] theorem rs1Of_formatS (imm : BitVec 12) (rs2 rs1 : RegIdx) (f3 : BitVec 3) (op : BitVec 7) :
    rs1Of (formatS imm rs2 rs1 f3 op) = rs1 := by
  refine BitVec.eq_of_getLsbD_eq fun k hk => ?_
  simp only [rs1Of, formatS, BitVec.getLsbD_extractLsb', BitVec.getLsbD_append]
  interval_cases k <;> simp

@[simp] theorem rs2Of_formatS (imm : BitVec 12) (rs2 rs1 : RegIdx) (f3 : BitVec 3) (op : BitVec 7) :
    rs2Of (formatS imm rs2 rs1 f3 op) = rs2 := by
  refine BitVec.eq_of_getLsbD_eq fun k hk => ?_
  simp only [rs2Of, formatS, BitVec.getLsbD_extractLsb', BitVec.getLsbD_append]
  interval_cases k <;> simp

@[simp] theorem immS_formatS (imm : BitVec 12) (rs2 rs1 : RegIdx) (f3 : BitVec 3) (op : BitVec 7) :
    immS (formatS imm rs2 rs1 f3 op) = imm.signExtend 32 := by
  unfold immS
  congr 1
  refine BitVec.eq_of_getLsbD_eq fun k hk => ?_
  simp only [formatS, BitVec.getLsbD_extractLsb', BitVec.getLsbD_append]
  interval_cases k <;> simp

@[simp] theorem opcodeOf_formatB (imm : BitVec 13) (rs2 rs1 : RegIdx) (f3 : BitVec 3) (op : BitVec 7) :
    opcodeOf (formatB imm rs2 rs1 f3 op) = op := by
  refine BitVec.eq_of_getLsbD_eq fun k hk => ?_
  simp only [opcodeOf, formatB, BitVec.getLsbD_extractLsb', BitVec.getLsbD_append]
  interval_cases k <;> simp

@[simp] theorem funct3Of_formatB (imm : BitVec 13) (rs2 rs1 : RegIdx) (f3 : BitVec 3) (op : BitVec 7) :
    funct3Of (formatB imm rs2 rs1 f3 op) = f3 := by
  refine BitVec.eq_of_getLsbD_eq fun k hk => ?_
  simp only [funct3Of, formatB, BitVec.getLsbD_extractLsb', BitVec.getLsbD_append]
  interval_cases k <;> simp

@[simp] theorem rs1Of_formatB (imm : BitVec 13) (rs2 rs1 : RegIdx) (f3 : BitVec 3) (op : BitVec 7) :
    rs1Of (formatB imm rs2 rs1 f3 op) = rs1 := by
  refine BitVec.eq_of_getLsbD_eq fun k hk => ?_
  simp only [rs1Of, formatB, BitVec.getLsbD_extractLsb', BitVec.getLsbD_append]
  interval_cases k <;> simp

@[simp] theorem rs2Of_formatB (imm : BitVec 13) (rs2 rs1 : RegIdx) (f3 : BitVec 3) (op : BitVec 7) :
    rs2Of (formatB imm rs2 rs1 f3 op) = rs2 := by
  refine BitVec.eq_of_getLsbD_eq fun k hk => ?_
  simp only [rs2Of, formatB, BitVec.getLsbD_extractLsb', BitVec.getLsbD_append]
  interval_cases k <;> simp

/-- Bit 0 of the immediate is not encoded and reads back as 0. -/
theorem immB_formatB (imm : BitVec 13) (rs2 rs1 : RegIdx) (f3 : BitVec 3) (op : BitVec 7) (h0 : imm.getLsbD 0 = false) :
    immB (formatB imm rs2 rs1 f3 op) = imm.signExtend 32 := by
  unfold immB
  congr 1
  refine BitVec.eq_of_getLsbD_eq fun k hk => ?_
  simp only [formatB, BitVec.getLsbD_extractLsb', BitVec.getLsbD_append]
  interval_cases k <;> simp
  simpa using h0

@[simp] theorem opcodeOf_formatU (imm : BitVec 20) (rd : RegIdx) (op : BitVec 7) :
    opcodeOf (formatU imm rd op) = op := by
  refine BitVec.eq_of_getLsbD_eq fun k hk => ?_
  simp only [opcodeOf, formatU, BitVec.getLsbD_extractLsb', BitVec.getLsbD_append]
  interval_cases k <;> simp

@[simp] theorem rdOf_formatU (imm : BitVec 20) (rd : RegIdx) (op : BitVec 7) :
    rdOf (formatU imm rd op) = rd := by
  refine BitVec.eq_of_getLsbD_eq fun k hk => ?_
  simp only [rdOf, formatU, BitVec.getLsbD_extractLsb', BitVec.getLsbD_append]
  interval_cases k <;> simp

@[simp] theorem immU_formatU (imm : BitVec 20) (rd : RegIdx) (op : BitVec 7) :
    immU (formatU imm rd op) = imm ++ 0#12 := by
  refine BitVec.eq_of_getLsbD_eq fun k hk => ?_
  simp only [immU, formatU, BitVec.getLsbD_extractLsb', BitVec.getLsbD_append]
  interval_cases k <;> simp

@[simp] theorem opcodeOf_formatJ (imm : BitVec 21) (rd : RegIdx) (op : BitVec 7) :
    opcodeOf (formatJ imm rd op) = op := by
  refine BitVec.eq_of_getLsbD_eq fun k hk => ?_
  simp only [opcodeOf, formatJ, BitVec.getLsbD_extractLsb', BitVec.getLsbD_append]
  interval_cases k <;> simp

@[simp] theorem rdOf_formatJ (imm : BitVec 21) (rd : RegIdx) (op : BitVec 7) :
    rdOf (formatJ imm rd op) = rd := by
  refine BitVec.eq_of_getLsbD_eq fun k hk => ?_
  simp only [rdOf, formatJ, BitVec.getLsbD_extractLsb', BitVec.getLsbD_append]
  interval_cases k <;> simp

/-- Bit 0 of the immediate is not encoded and reads back as 0. -/
theorem immJ_formatJ (imm : BitVec 21) (rd : RegIdx) (op : BitVec 7) (h0 : imm.getLsbD 0 = false) :
    immJ (formatJ imm rd op) = imm.signExtend 32 := by
  unfold immJ
  congr 1
  refine BitVec.eq_of_getLsbD_eq fun k hk => ?_
  simp only [formatJ, BitVec.getLsbD_extractLsb', BitVec.getLsbD_append]
  interval_cases k <;> simp
  simpa using h0

end Sys2Proof
end

