-- ==== Sys2Proof/Laws/State.lean ====
section
/-! SUPPORT. One lemma per field per update of the state, so that no proof unfolds a record update. -/

namespace Sys2Proof.Machine

@[simp] theorem setPc_pc (s : State) (p : Word) : (s.setPc p).pc = p := rfl
@[simp] theorem setPc_regs (s : State) (p : Word) : (s.setPc p).regs = s.regs := rfl
@[simp] theorem setPc_count (s : State) (p : Word) : (s.setPc p).instructionCount = s.instructionCount := rfl
@[simp] theorem setPc_mem (s : State) (p : Word) : (s.setPc p).mem = s.mem := rfl
@[simp] theorem setPc_status (s : State) (p : Word) : (s.setPc p).status = s.status := rfl
@[simp] theorem setPc_config (s : State) (p : Word) : (s.setPc p).config = s.config := rfl
@[simp] theorem setPc_loaded (s : State) (p : Word) : (s.setPc p).loaded = s.loaded := rfl

@[simp] theorem setStatus_status (s : State) (x : Status) : (s.setStatus x).status = x := rfl
@[simp] theorem setStatus_regs (s : State) (x : Status) : (s.setStatus x).regs = s.regs := rfl
@[simp] theorem setStatus_pc (s : State) (x : Status) : (s.setStatus x).pc = s.pc := rfl
@[simp] theorem setStatus_count (s : State) (x : Status) : (s.setStatus x).instructionCount = s.instructionCount := rfl
@[simp] theorem setStatus_mem (s : State) (x : Status) : (s.setStatus x).mem = s.mem := rfl
@[simp] theorem setStatus_config (s : State) (x : Status) : (s.setStatus x).config = s.config := rfl
@[simp] theorem setStatus_loaded (s : State) (x : Status) : (s.setStatus x).loaded = s.loaded := rfl

@[simp] theorem setCount_count (s : State) (n : Word) : (s.setCount n).instructionCount = n := rfl
@[simp] theorem setCount_regs (s : State) (n : Word) : (s.setCount n).regs = s.regs := rfl
@[simp] theorem setCount_pc (s : State) (n : Word) : (s.setCount n).pc = s.pc := rfl
@[simp] theorem setCount_mem (s : State) (n : Word) : (s.setCount n).mem = s.mem := rfl
@[simp] theorem setCount_status (s : State) (n : Word) : (s.setCount n).status = s.status := rfl
@[simp] theorem setCount_config (s : State) (n : Word) : (s.setCount n).config = s.config := rfl
@[simp] theorem setCount_loaded (s : State) (n : Word) : (s.setCount n).loaded = s.loaded := rfl

@[simp] theorem setMem_mem (s : State) (m : Memory) : (s.setMem m).mem = m := rfl
@[simp] theorem setMem_regs (s : State) (m : Memory) : (s.setMem m).regs = s.regs := rfl
@[simp] theorem setMem_pc (s : State) (m : Memory) : (s.setMem m).pc = s.pc := rfl
@[simp] theorem setMem_count (s : State) (m : Memory) : (s.setMem m).instructionCount = s.instructionCount := rfl
@[simp] theorem setMem_status (s : State) (m : Memory) : (s.setMem m).status = s.status := rfl
@[simp] theorem setMem_config (s : State) (m : Memory) : (s.setMem m).config = s.config := rfl
@[simp] theorem setMem_loaded (s : State) (m : Memory) : (s.setMem m).loaded = s.loaded := rfl

@[simp] theorem setLoaded_loaded (s : State) (b : Bool) : (s.setLoaded b).loaded = b := rfl
@[simp] theorem setLoaded_regs (s : State) (b : Bool) : (s.setLoaded b).regs = s.regs := rfl
@[simp] theorem setLoaded_pc (s : State) (b : Bool) : (s.setLoaded b).pc = s.pc := rfl
@[simp] theorem setLoaded_count (s : State) (b : Bool) : (s.setLoaded b).instructionCount = s.instructionCount := rfl
@[simp] theorem setLoaded_mem (s : State) (b : Bool) : (s.setLoaded b).mem = s.mem := rfl
@[simp] theorem setLoaded_status (s : State) (b : Bool) : (s.setLoaded b).status = s.status := rfl
@[simp] theorem setLoaded_config (s : State) (b : Bool) : (s.setLoaded b).config = s.config := rfl

/-! A register write touches the register file alone. -/

@[simp] theorem writeReg_pc (s : State) (i : RegIdx) (v : Word) : (s.writeReg i v).pc = s.pc := by
  unfold State.writeReg; split <;> rfl
@[simp] theorem writeReg_count (s : State) (i : RegIdx) (v : Word) :
    (s.writeReg i v).instructionCount = s.instructionCount := by
  unfold State.writeReg; split <;> rfl
@[simp] theorem writeReg_mem (s : State) (i : RegIdx) (v : Word) : (s.writeReg i v).mem = s.mem := by
  unfold State.writeReg; split <;> rfl
@[simp] theorem writeReg_status (s : State) (i : RegIdx) (v : Word) : (s.writeReg i v).status = s.status := by
  unfold State.writeReg; split <;> rfl
@[simp] theorem writeReg_config (s : State) (i : RegIdx) (v : Word) : (s.writeReg i v).config = s.config := by
  unfold State.writeReg; split <;> rfl
@[simp] theorem writeReg_loaded (s : State) (i : RegIdx) (v : Word) : (s.writeReg i v).loaded = s.loaded := by
  unfold State.writeReg; split <;> rfl

/-! The other updates leave the registers as they read. -/

@[simp] theorem readReg_setPc (s : State) (p : Word) (r : RegIdx) : (s.setPc p).readReg r = s.readReg r := rfl
@[simp] theorem readReg_setStatus (s : State) (x : Status) (r : RegIdx) : (s.setStatus x).readReg r = s.readReg r := rfl
@[simp] theorem readReg_setCount (s : State) (n : Word) (r : RegIdx) : (s.setCount n).readReg r = s.readReg r := rfl
@[simp] theorem readReg_setMem (s : State) (m : Memory) (r : RegIdx) : (s.setMem m).readReg r = s.readReg r := rfl
@[simp] theorem readReg_setLoaded (s : State) (b : Bool) (r : RegIdx) : (s.setLoaded b).readReg r = s.readReg r := rfl

/-! The ends of a step in terms of the updates. -/

@[simp] theorem advance_eq (s : State) : s.advance = s.setPc (s.pc + 1#32) := rfl
@[simp] theorem raise_eq (s : State) (f : HwFault) : s.raise f = s.setStatus (.faulted f) := rfl
@[simp] theorem halt_eq (s : State) : s.halt = s.setStatus .halted := rfl

/-! Which updates leave the cell a word index names, and so reads and fetches, alone. -/

@[simp] theorem cellIndex_setStatus (s : State) (x : Status) (a : Word) : (s.setStatus x).cellIndex a = s.cellIndex a := rfl
@[simp] theorem cellIndex_setPc (s : State) (p a : Word) : (s.setPc p).cellIndex a = s.cellIndex a := rfl
@[simp] theorem cellIndex_setCount (s : State) (n a : Word) : (s.setCount n).cellIndex a = s.cellIndex a := rfl
@[simp] theorem cellIndex_setMem (s : State) (m : Memory) (a : Word) : (s.setMem m).cellIndex a = s.cellIndex a := rfl
@[simp] theorem cellIndex_setLoaded (s : State) (b : Bool) (a : Word) : (s.setLoaded b).cellIndex a = s.cellIndex a := rfl
@[simp] theorem cellIndex_writeReg (s : State) (i : RegIdx) (v a : Word) :
    (s.writeReg i v).cellIndex a = s.cellIndex a := by
  simp [State.cellIndex]
@[simp] theorem fetch_setStatus (s : State) (x : Status) : (s.setStatus x).fetch = s.fetch := rfl

end Sys2Proof.Machine
end

