-- ==== Sys2Proof/Laws/Memory.lean ====
section
/-! SUPPORT. The laws of the memory array: read after write, every other cell left alone, and that every memory operation
keeps the canonical form. The first two need no premise on the list's form. -/

namespace Sys2Proof.Machine

theorem cellAt_of_not_listed (m : Memory) (a : Nat) (h : ∀ c ∈ m, c.1 ≠ a) : cellAt m a = unlistedCell := by
  induction m with
  | nil => rfl
  | cons c m ih =>
    have hc : c.1 ≠ a := h c (by simp)
    simp only [cellAt, hc, if_false]
    exact ih fun d hd => h d (by simp [hd])

theorem cellAt_filter (m : Memory) (a b : Nat) :
    cellAt (m.filter (fun c => c.1 ≠ a)) b = if b = a then unlistedCell else cellAt m b := by
  induction m with
  | nil => simp [cellAt]
  | cons c m ih =>
    by_cases hc : c.1 = a
    · simp only [hc, ne_eq, not_true, decide_false, Bool.false_eq_true, not_false_eq_true, List.filter_cons_of_neg,
        cellAt] at ih ⊢
      rw [ih]
      by_cases hb : b = a
      · simp [hb]
      · simp [hb, Ne.symm hb]
    · simp only [ne_eq, hc, not_false_eq_true, decide_true, List.filter_cons_of_pos, cellAt] at ih ⊢
      by_cases hb : c.1 = b
      · have : b ≠ a := hb ▸ hc
        simp [hb, this]
      · simpa [hb] using ih

theorem cellAt_insertCell (m : Memory) (a b : Nat) (v : Word) (h : ∀ c ∈ m, c.1 ≠ a) :
    cellAt (insertCell m a v) b = if b = a then v else cellAt m b := by
  induction m with
  | nil => simp [insertCell, cellAt, eq_comm]
  | cons c m ih =>
    have hc : c.1 ≠ a := h c (by simp)
    have ih := ih fun d hd => h d (by simp [hd])
    simp only [insertCell]
    split
    · simp [cellAt, eq_comm]
    · simp only [cellAt, ih]
      by_cases hb : b = a
      · simp [hb, hc]
      · simp [hb]

/-- Everything a cell write does to the cells as they read. -/
theorem cellAt_putCell (m : Memory) (a b : Nat) (v : Word) :
    cellAt (putCell m a v) b = if b = a then v else cellAt m b := by
  unfold putCell
  split
  · rename_i h
    rw [cellAt_filter, h]
  · rw [cellAt_insertCell _ _ _ _ (by simp), cellAt_filter]
    by_cases hb : b = a <;> simp [hb]

@[simp] theorem cellAt_nil (a : Nat) : cellAt [] a = 0#32 := rfl

theorem mem_insertCell (m : Memory) (a : Nat) (v : Word) (c : Nat × Word) :
    c ∈ insertCell m a v ↔ c = (a, v) ∨ c ∈ m := by
  induction m with
  | nil => simp [insertCell]
  | cons d m ih =>
    simp only [insertCell]
    split
    · simp
    · simp only [List.mem_cons, ih]
      exact or_left_comm

theorem mem_putCell {m : Memory} {a : Nat} {v : Word} {c : Nat × Word} (h : c ∈ putCell m a v) :
    c = (a, v) ∧ v ≠ unlistedCell ∨ c ∈ m := by
  unfold putCell at h
  split at h
  · exact .inr (List.mem_of_mem_filter h)
  · rename_i hv
    rcases (mem_insertCell _ _ _ _).1 h with h | h
    · exact .inl ⟨h, hv⟩
    · exact .inr (List.mem_of_mem_filter h)

theorem insertCell_rising (m : Memory) (a : Nat) (v : Word) (hm : m.Pairwise (fun c d => c.1 < d.1))
    (ha : ∀ c ∈ m, c.1 ≠ a) : (insertCell m a v).Pairwise (fun c d => c.1 < d.1) := by
  induction m with
  | nil => simp [insertCell]
  | cons c m ih =>
    rw [List.pairwise_cons] at hm
    have hc : c.1 ≠ a := ha c (by simp)
    simp only [insertCell]
    split
    · rename_i hlt
      refine List.pairwise_cons.2 ⟨fun d hd => ?_, List.pairwise_cons.2 hm⟩
      rcases List.mem_cons.1 hd with rfl | hd
      · exact hlt
      · exact Nat.lt_trans hlt (hm.1 d hd)
    · rename_i hge
      refine List.pairwise_cons.2 ⟨fun d hd => ?_, ih hm.2 fun d hd => ha d (by simp [hd])⟩
      rcases (mem_insertCell _ _ _ _).1 hd with rfl | hd
      · show c.1 < a
        have : ¬ a < c.1 := hge
        omega
      · exact hm.1 d hd

/-- A cell write keeps the canonical form. -/
theorem putCell_wf (m : Memory) (a : Nat) (v : Word) (h : Memory.wf m) : Memory.wf (putCell m a v) := by
  have hf := h.1.filter (fun c => c.1 ≠ a)
  refine ⟨?_, fun c hc => ?_⟩
  · unfold putCell
    split
    · exact hf
    · exact insertCell_rising _ _ _ hf (by simp)
  · rcases mem_putCell hc with ⟨rfl, hv⟩ | hc
    · exact hv
    · exact h.2 c hc

theorem putCell_inside (m : Memory) (a : Nat) (v : Word) (n : Nat) (h : ∀ c ∈ m, c.1 < n) (ha : a < n) :
    ∀ c ∈ putCell m a v, c.1 < n := by
  intro c hc
  rcases mem_putCell hc with ⟨rfl, _⟩ | hc
  · exact ha
  · exact h c hc

theorem nil_wf : Memory.wf [] := by decide

theorem resetWith_mem_wf (c : Config) : Memory.wf (State.resetWith c).mem := nil_wf

end Sys2Proof.Machine
end

