-- ==== Sys2Proof/Laws/Registers.lean ====
section
/-! SUPPORT. What a register read sees of a register write (spec 10 R22 to R24). -/

namespace Sys2Proof.Machine

@[simp] theorem readReg_zero (s : State) : s.readReg 0#5 = 0#32 := rfl

@[simp] theorem writeReg_zero (s : State) (v : Word) : s.writeReg 0#5 v = s := rfl

/-- Everything a register write does to the registers as they read. -/
theorem readReg_writeReg (s : State) (i r : RegIdx) (v : Word) :
    (s.writeReg i v).readReg r = if r = i ∧ i ≠ 0#5 then v else s.readReg r := by
  by_cases hi : i = 0#5
  · simp [hi]
  by_cases hr : r = 0#5
  · have : ¬ (0#5 = i) := fun h => hi h.symm
    simp [hr, this]
  have hv : (s.writeReg i v).regs = s.regs.set i.toNat v i.isLt := by simp [State.writeReg, hi]
  simp only [State.readReg, hr, if_false, hv, Vector.getElem_set, hi, ne_eq, not_false_eq_true, and_true]
  by_cases h : r = i
  · simp [h]
  · have : i.toNat ≠ r.toNat := fun e => h (BitVec.eq_of_toNat_eq e.symm)
    simp [h, this]

theorem readReg_writeReg_ne (s : State) (i r : RegIdx) (v : Word) (h : r ≠ i) :
    (s.writeReg i v).readReg r = s.readReg r := by
  simp [readReg_writeReg, h]

theorem readReg_writeReg_same (s : State) (i : RegIdx) (v : Word) (h : i ≠ 0#5) :
    (s.writeReg i v).readReg i = v := by
  simp [readReg_writeReg, h]

/-- Register 0's slot is never written. -/
theorem writeReg_slot_zero (s : State) (i : RegIdx) (v : Word) : (s.writeReg i v).regs[0] = s.regs[0] := by
  unfold State.writeReg
  split
  · rfl
  · rename_i h
    have : i.toNat ≠ 0 := fun e => h (BitVec.eq_of_toNat_eq e)
    simp [this]

end Sys2Proof.Machine
end

