-- ==== Sys2Proof/Laws/Ops.lean ====
section
/-! SUPPORT. What the memory accesses and the shared shapes of instructions can answer, said once. -/

namespace Sys2Proof.Machine

/-- The cell a word index names exists exactly inside the array. -/
theorem cellIndex_eq_some (s : State) (addr : Word) (a : Nat) :
    s.cellIndex addr = some a ↔
      (0 ≤ addr.toInt ∧ addr.toInt < (s.config.memWords : Int)) ∧ addr.toInt.toNat = a := by
  unfold State.cellIndex
  split
  · rename_i h; simp [h]
  · rename_i h; simp [h]

theorem cellIndex_eq_none (s : State) (addr : Word) :
    s.cellIndex addr = none ↔ ¬ (0 ≤ addr.toInt ∧ addr.toInt < (s.config.memWords : Int)) := by
  unfold State.cellIndex
  split
  · rename_i h; simp [h]
  · rename_i h; simp only [h, not_false_eq_true]

theorem cellIndex_lt {s : State} {addr : Word} {a : Nat} (h : s.cellIndex addr = some a) : a < s.config.memWords := by
  obtain ⟨⟨h0, h1⟩, rfl⟩ := (cellIndex_eq_some s addr a).1 h
  omega

/-- A read answers the low bits of its cell, or stops outside the array. -/
theorem memRead_cases (s : State) (addr : Word) (n : Width) :
    (∃ a, s.cellIndex addr = some a ∧ s.memRead addr n = .ok (zext n.bits (cellAt s.mem a))) ∨
      (s.cellIndex addr = none ∧ s.memRead addr n = .error (.outOfRange addr.toInt)) := by
  unfold State.memRead
  cases h : s.cellIndex addr <;> simp

/-- A write replaces its cell, or stops outside the array. -/
theorem memWrite_cases (s : State) (addr : Word) (n : Width) (v : Word) :
    (∃ a, s.cellIndex addr = some a ∧ s.memWrite addr n v = .ok (s.setMem (putCell s.mem a (zext n.bits v)))) ∨
      (s.cellIndex addr = none ∧ s.memWrite addr n v = .error (.outOfRange addr.toInt)) := by
  unfold State.memWrite
  cases h : s.cellIndex addr <;> simp

theorem zext_word (v : Word) : zext 32 v = v := by simp [zext]

theorem sext_word (v : Word) : sext 32 v = v := by simp [sext]

/-- The low bits kept twice are the low bits. -/
theorem sext_zext (n : Nat) (v : Word) : sext n (zext n v) = sext n v := by
  unfold sext zext
  congr 1
  ext i hi
  simp only [BitVec.getElem_setWidth, BitVec.getLsbD_setWidth]
  by_cases h : i < 32
  · simp [h, hi]
  · simp [h, BitVec.getLsbD_of_ge v i (by omega)]

/-- A fetch answers the cell at `pc`, or stops outside the array. -/
theorem fetch_cases (s : State) :
    (∃ a, s.cellIndex s.pc = some a ∧ s.fetch = .ok (cellAt s.mem a)) ∨
      (s.cellIndex s.pc = none ∧ s.fetch = .error (.outOfRange s.pc.toInt)) := by
  rcases memRead_cases s s.pc .word with ⟨a, h, e⟩ | ⟨h, e⟩
  · exact .inl ⟨a, h, by rw [State.fetch, e]; simp [Width.bits, zext_word]⟩
  · exact .inr ⟨h, by rw [State.fetch, e]⟩

/-- Everything a load can do. -/
theorem loadSigned_cases (n : Width) (rd rs1 : RegIdx) (imm : Word) (s : State) :
    (∃ a, s.cellIndex (effectiveAddress s rs1 imm) = some a ∧
        loadSigned n rd rs1 imm s = writeAndAdvance rd (sext n.bits (cellAt s.mem a)) s) ∨
      (s.cellIndex (effectiveAddress s rs1 imm) = none ∧
        loadSigned n rd rs1 imm s = .fault (.outOfRange (effectiveAddress s rs1 imm).toInt)) := by
  unfold loadSigned
  rcases memRead_cases s (effectiveAddress s rs1 imm) n with ⟨a, h, e⟩ | ⟨h, e⟩
  · exact .inl ⟨a, h, by simp [e, sext_zext]⟩
  · exact .inr ⟨h, by simp [e]⟩

/-- Everything a store can do. -/
theorem storeLow_cases (n : Width) (rs2 rs1 : RegIdx) (imm : Word) (s : State) :
    (∃ a, s.cellIndex (effectiveAddress s rs1 imm) = some a ∧
        storeLow n rs2 rs1 imm s =
          .next ((s.setMem (putCell s.mem a (zext n.bits (s.readReg rs2)))).setPc (s.pc + 1#32))) ∨
      (s.cellIndex (effectiveAddress s rs1 imm) = none ∧
        storeLow n rs2 rs1 imm s = .fault (.outOfRange (effectiveAddress s rs1 imm).toInt)) := by
  unfold storeLow
  rcases memWrite_cases s (effectiveAddress s rs1 imm) n (s.readReg rs2) with ⟨a, h, e⟩ | ⟨h, e⟩
  · exact .inl ⟨a, h, by simp [e]⟩
  · exact .inr ⟨h, by simp [e]⟩

/-- A load inside the array. -/
theorem loadSigned_inside (n : Width) (rd rs1 : RegIdx) (imm : Word) (s : State)
    (h : 0 ≤ (effectiveAddress s rs1 imm).toInt ∧ (effectiveAddress s rs1 imm).toInt < (s.config.memWords : Int)) :
    loadSigned n rd rs1 imm s =
      .next ((s.writeReg rd (sext n.bits (cellAt s.mem (effectiveAddress s rs1 imm).toInt.toNat))).setPc (s.pc + 1#32)) := by
  rcases loadSigned_cases n rd rs1 imm s with ⟨a, hc, e⟩ | ⟨hc, _⟩
  · obtain ⟨_, rfl⟩ := (cellIndex_eq_some s _ _).1 hc
    rw [e]
    simp [writeAndAdvance]
  · exact absurd h ((cellIndex_eq_none s _).1 hc)

/-- A load outside the array. -/
theorem loadSigned_outside (n : Width) (rd rs1 : RegIdx) (imm : Word) (s : State)
    (h : ¬ (0 ≤ (effectiveAddress s rs1 imm).toInt ∧ (effectiveAddress s rs1 imm).toInt < (s.config.memWords : Int))) :
    loadSigned n rd rs1 imm s = .fault (.outOfRange (effectiveAddress s rs1 imm).toInt) := by
  rcases loadSigned_cases n rd rs1 imm s with ⟨a, hc, _⟩ | ⟨_, e⟩
  · exact absurd ((cellIndex_eq_some s _ _).1 hc).1 h
  · exact e

/-- A store inside the array. -/
theorem storeLow_inside (n : Width) (rs2 rs1 : RegIdx) (imm : Word) (s : State)
    (h : 0 ≤ (effectiveAddress s rs1 imm).toInt ∧ (effectiveAddress s rs1 imm).toInt < (s.config.memWords : Int)) :
    storeLow n rs2 rs1 imm s =
      .next ((s.setMem (putCell s.mem (effectiveAddress s rs1 imm).toInt.toNat
        (zext n.bits (s.readReg rs2)))).setPc (s.pc + 1#32)) := by
  rcases storeLow_cases n rs2 rs1 imm s with ⟨a, hc, e⟩ | ⟨hc, _⟩
  · obtain ⟨_, rfl⟩ := (cellIndex_eq_some s _ _).1 hc
    exact e
  · exact absurd h ((cellIndex_eq_none s _).1 hc)

/-- A store outside the array. -/
theorem storeLow_outside (n : Width) (rs2 rs1 : RegIdx) (imm : Word) (s : State)
    (h : ¬ (0 ≤ (effectiveAddress s rs1 imm).toInt ∧ (effectiveAddress s rs1 imm).toInt < (s.config.memWords : Int))) :
    storeLow n rs2 rs1 imm s = .fault (.outOfRange (effectiveAddress s rs1 imm).toInt) := by
  rcases storeLow_cases n rs2 rs1 imm s with ⟨a, hc, _⟩ | ⟨_, e⟩
  · exact absurd ((cellIndex_eq_some s _ _).1 hc).1 h
  · exact e

/-- Everything MUL and DIV can do without the option. -/
theorem absentMulDiv_eq (s : State) :
    absentMulDiv s = .next (s.setStatus (.faulted (.decode ⟨.funct7, 1⟩))) := rfl

theorem writeAndAdvance_eq (rd : RegIdx) (v : Word) (s : State) :
    writeAndAdvance rd v s = .next ((s.writeReg rd v).setPc (s.pc + 1#32)) := by
  simp [writeAndAdvance]

theorem linkAndJump_eq (rd : RegIdx) (target : Word) (s : State) :
    linkAndJump rd target s = .next ((s.writeReg rd (s.pc + 1#32)).setPc target) := rfl

theorem branchIf_eq (taken : Bool) (imm : Word) (s : State) :
    branchIf taken imm s = .next (s.setPc (if taken then s.pc + imm else s.pc + 1#32)) := rfl

end Sys2Proof.Machine
end

