-- ==== Sys2Proof/Laws/Exec.lean ====
section
/-! SUPPORT. Said once: everything an instruction can do, and everything a step can do. Invariants and frames follow from these
without unfolding the meanings again. -/

namespace Sys2Proof.Machine

/-! The shapes of an effect, shown once for the states the shared operations answer. -/

theorem writeReg_setPc_only (s : State) (rd : RegIdx) (v p : Word) :
    OnlyRegAndPc s ((s.writeReg rd v).setPc p) rd v p where
  zero := rfl
  dest h := by simp [readReg_writeReg_same _ _ _ h]
  others r h := by simp [readReg_writeReg_ne _ _ _ _ h]
  pc := rfl
  cells a := by simp
  bound := by simp
  status := by simp
  config := by simp
  loaded := by simp

theorem putCell_setPc_only (s : State) (a : Nat) (v p : Word) :
    OnlyCellAndPc s ((s.setMem (putCell s.mem a v)).setPc p) a v p where
  cell := by simp [cellAt_putCell]
  others b h := by simp [cellAt_putCell, h]
  regs r := rfl
  pc := rfl
  bound := rfl
  status := rfl
  config := rfl
  loaded := rfl

theorem setPc_only (s : State) (p : Word) : OnlyPc s (s.setPc p) p := ⟨fun _ => rfl, rfl, fun _ => rfl, rfl, rfl, rfl, rfl⟩

/-- What an instruction that computes a register, links, branches, loads or stores can answer. -/
inductive Effect (i : Instr) (s : State) : Host.Outcome State Fault Refusal → Prop where
  /-- A register written (or its write discarded) and `pc` set. -/
  | register (rd : RegIdx) (v p : Word) (hd : i.dest = some rd) (hs : isStore i = false) :
      Effect i s (.next ((s.writeReg rd v).setPc p))
  /-- A branch: `pc` set and nothing else. -/
  | branch (p : Word) (hd : i.dest = none) (hs : isStore i = false) : Effect i s (.next (s.setPc p))
  /-- A store: the cell of its data address replaced and `pc` advanced. -/
  | store (addr : Word) (a : Nat) (v : Word) (hs : isStore i = true) (hd : i.dest = none)
      (ha : dataAddress i s = some addr) (hc : s.cellIndex addr = some a) :
      Effect i s (.next ((s.setMem (putCell s.mem a v)).setPc (s.pc + 1#32)))
  /-- DIV by zero: the arithmetic fault taken. -/
  | divByZero (rd rs1 rs2 : RegIdx) (hi : i = .div rd rs1 rs2) (hm : s.config.hasMulDiv = true)
      (hz : s.readReg rs2 = 0#32) : Effect i s (.next (s.setStatus (.faulted .arithmetic)))
  /-- MUL or DIV where neither exists: never reached from a step. -/
  | absent (hp : i.present s.config.hasMulDiv = false) :
      Effect i s (.next (s.setStatus (.faulted (.decode ⟨.funct7, 1⟩))))
  /-- A data access outside the array: the model's own stop. -/
  | outOfRange (addr : Word) (ha : dataAddress i s = some addr) (hn : ¬ InArray s addr) :
      Effect i s (.fault (.outOfRange addr.toInt))

theorem writeAndAdvance_effect {rd : RegIdx} {v : Word} {s : State} {i : Instr} (hd : i.dest = some rd)
    (hs : isStore i = false) : Effect i s (writeAndAdvance rd v s) := by
  rw [writeAndAdvance_eq]
  exact .register rd _ _ hd hs

theorem linkAndJump_effect {rd : RegIdx} {target : Word} {s : State} {i : Instr} (hd : i.dest = some rd)
    (hs : isStore i = false) : Effect i s (linkAndJump rd target s) := by
  rw [linkAndJump_eq]
  exact .register rd _ _ hd hs

theorem branchIf_effect {taken : Bool} {imm : Word} {s : State} {i : Instr} (hd : i.dest = none)
    (hs : isStore i = false) : Effect i s (branchIf taken imm s) := by
  rw [branchIf_eq]
  exact .branch _ hd hs

theorem loadSigned_effect {n : Width} {rd rs1 : RegIdx} {imm : Word} {s : State} {i : Instr} (hd : i.dest = some rd)
    (hs : isStore i = false) (ha : dataAddress i s = some (effectiveAddress s rs1 imm)) :
    Effect i s (loadSigned n rd rs1 imm s) := by
  rcases loadSigned_cases n rd rs1 imm s with ⟨a, _, e⟩ | ⟨h, e⟩ <;> rw [e]
  · exact writeAndAdvance_effect hd hs
  · exact .outOfRange _ ha ((cellIndex_eq_none s _).1 h)

theorem storeLow_effect {n : Width} {rs2 rs1 : RegIdx} {imm : Word} {s : State} {i : Instr} (hd : i.dest = none)
    (hs : isStore i = true) (ha : dataAddress i s = some (effectiveAddress s rs1 imm)) :
    Effect i s (storeLow n rs2 rs1 imm s) := by
  rcases storeLow_cases n rs2 rs1 imm s with ⟨a, h, e⟩ | ⟨h, e⟩ <;> rw [e]
  · exact .store _ a _ hs hd ha h
  · exact .outOfRange _ ha ((cellIndex_eq_none s _).1 h)

/-- Everything an instruction can do. -/
theorem exec_effect (i : Instr) (s : State) : Effect i s (exec i s) := by
  cases i with
  | add rd rs1 rs2 => exact writeAndAdvance_effect rfl rfl
  | sub rd rs1 rs2 => exact writeAndAdvance_effect rfl rfl
  | mul rd rs1 rs2 =>
    simp only [exec, execMul, writeAndAdvance_eq, absentMulDiv_eq]
    split
    · exact .register rd _ _ rfl rfl
    · rename_i h
      exact .absent (by simpa [Instr.present] using h)
  | div rd rs1 rs2 =>
    simp only [exec, execDiv, writeAndAdvance_eq, absentMulDiv_eq, raise_eq]
    split
    · rename_i hm
      split
      · rename_i hz
        exact .divByZero rd rs1 rs2 rfl hm hz
      · exact .register rd _ _ rfl rfl
    · rename_i h
      exact .absent (by simpa [Instr.present] using h)
  | lb rd rs1 imm => exact loadSigned_effect rfl rfl rfl
  | lh rd rs1 imm => exact loadSigned_effect rfl rfl rfl
  | lw rd rs1 imm => exact loadSigned_effect rfl rfl rfl
  | addi rd rs1 imm => exact writeAndAdvance_effect rfl rfl
  | ori rd rs1 imm => exact writeAndAdvance_effect rfl rfl
  | andi rd rs1 imm => exact writeAndAdvance_effect rfl rfl
  | sb rs2 rs1 imm => exact storeLow_effect rfl rfl rfl
  | sh rs2 rs1 imm => exact storeLow_effect rfl rfl rfl
  | sw rs2 rs1 imm => exact storeLow_effect rfl rfl rfl
  | lui rd imm => exact writeAndAdvance_effect rfl rfl
  | auipc rd imm => exact writeAndAdvance_effect rfl rfl
  | jal rd imm => exact linkAndJump_effect rfl rfl
  | jalr rd rs1 imm => exact linkAndJump_effect rfl rfl
  | beq rs1 rs2 imm => exact branchIf_effect rfl rfl
  | bne rs1 rs2 imm => exact branchIf_effect rfl rfl
  | blt rs1 rs2 imm => exact branchIf_effect rfl rfl
  | bge rs1 rs2 imm => exact branchIf_effect rfl rfl
  | bltu rs1 rs2 imm => exact branchIf_effect rfl rfl
  | bgeu rs1 rs2 imm => exact branchIf_effect rfl rfl

/-- The decoder yields only instructions that the option admits. -/
theorem present_of_decode {m : Bool} {w : Word} {i : Instr} (h : decode m w = .ok i) : i.present m = true := by
  unfold decode at h
  split_ifs at h
  all_goals first
    | (simp only [decodeOp, decodeLoad, decodeOpImm, decodeStore, decodeJalr, decodeBranch, opcodeFault, funct3Fault,
        funct7Fault] at h
       split_ifs at h <;> first | (cases h; rfl) | (cases h; simp_all [Instr.present]))
    | (cases h; rfl)
    | cases h

/-- Everything a step can do. -/
inductive StepEffect (s : State) : Host.Outcome State Fault Refusal → Prop where
  /-- The engine is not running: the state stays. -/
  | still (h : s.status ≠ .running) : StepEffect s (.next s)
  /-- The bound is reached. -/
  | halts (h : s.status = .running) (hb : fetchAllowed s = false) : StepEffect s (.next (s.setStatus .halted))
  /-- The fetch leaves the array. -/
  | fetchOutside (h : s.status = .running) (hb : fetchAllowed s = true) (hn : ¬ InArray s s.pc) :
      StepEffect s (.fault (.outOfRange s.pc.toInt))
  /-- The fetched word does not decode. -/
  | decodeFault (w : Word) (d : DecodeFault) (h : s.status = .running) (hb : fetchAllowed s = true)
      (hf : s.fetch = .ok w) (hd : decode s.config.hasMulDiv w = .error d) :
      StepEffect s (.next (s.setStatus (.faulted (.decode d))))
  /-- The fetched word decodes to `i`, which executes. -/
  | executes (w : Word) (i : Instr) (h : s.status = .running) (hb : fetchAllowed s = true) (hf : s.fetch = .ok w)
      (hd : decode s.config.hasMulDiv w = .ok i) : StepEffect s (exec i s)

/-- Everything a step can do. -/
theorem step_effect (s : State) : StepEffect s (step s) := by
  simp only [step, engineStep, runningStep, raise_eq, halt_eq]
  cases h : s.status with
  | idle => exact .still (by simp [h])
  | halted => exact .still (by simp [h])
  | faulted f => exact .still (by simp [h])
  | running =>
    cases hb : fetchAllowed s with
    | false => exact .halts h hb
    | true =>
      rcases fetch_cases s with ⟨a, _, hf⟩ | ⟨hn, hf⟩
      · cases hd : decode s.config.hasMulDiv (cellAt s.mem a) with
        | error d => simpa [hf, hd] using StepEffect.decodeFault _ d h hb hf hd
        | ok i => simpa [hf, hd] using StepEffect.executes _ i h hb hf hd
      · simpa [hf] using StepEffect.fetchOutside h hb ((cellIndex_eq_none s _).1 hn)

end Sys2Proof.Machine
end

