-- ==== Sys2Proof/Laws/HostPort.lean ====
section
/-! SUPPORT. The memory operations above a single cell write keep the canonical form too: the instruction's write, the host's poke
and load, and the placing of a fetched word. -/

namespace Sys2Proof.Machine

theorem memWrite_wf {s t : State} {addr : Word} {n : Width} {v : Word} (h : Memory.wf s.mem)
    (he : s.memWrite addr n v = .ok t) : Memory.wf t.mem := by
  rcases memWrite_cases s addr n v with ⟨a, _, e⟩ | ⟨_, e⟩ <;> rw [e] at he <;> cases he
  exact putCell_wf _ _ _ h

/-- The load keeps the canonical form, and stays below `n` if the program does. -/
theorem loadWords_wf (ws : List Word) (m : Memory) (a n : Nat) (hm : Memory.wf m) (hb : ∀ c ∈ m, c.1 < n)
    (hl : a + ws.length ≤ n) : Memory.wf (loadWords m a ws) ∧ ∀ c ∈ loadWords m a ws, c.1 < n := by
  induction ws generalizing m a with
  | nil => exact ⟨hm, hb⟩
  | cons w ws ih =>
    simp only [List.length_cons] at hl
    exact ih _ _ (putCell_wf _ _ _ hm) (putCell_inside _ _ _ _ hb (by omega)) (by omega)

theorem hostWriteMemory_wf {s t : State} {a : Nat} {v : Word} (h : Memory.wf s.mem)
    (he : hostWriteMemory a v s = .next t) : Memory.wf t.mem := by
  unfold hostWriteMemory at he
  split_ifs at he
  cases he
  exact putCell_wf _ _ _ h

theorem placeFetchWord_wf (s : State) (w : Word) (h : Memory.wf s.mem) : Memory.wf (placeFetchWord s w).mem := by
  simp only [placeFetchWord, setStatus_mem]
  split <;> split <;> first | exact h | exact putCell_wf _ _ _ h

end Sys2Proof.Machine
end

