-- ==== Sys2Proof/Laws/PerInstr.lean ====
section
/-! SUPPORT. The per-instruction family: the word of an instruction matches the opcode table's row of its mnemonic. -/

namespace Sys2Proof

/-! A word's masked bits are its selector fields, one lemma per mask of the table. -/

theorem mask_funct7_funct3_opcode (w : Word) :
    w &&& 0xFE00707F#32 = funct7Of w ++ 0#10 ++ funct3Of w ++ 0#5 ++ opcodeOf w := by
  refine BitVec.eq_of_getLsbD_eq fun k hk => ?_
  simp only [funct7Of, funct3Of, opcodeOf, BitVec.getLsbD_and, BitVec.getLsbD_append, BitVec.getLsbD_extractLsb']
  interval_cases k <;> simp

theorem mask_funct3_opcode (w : Word) : w &&& 0x0000707F#32 = 0#17 ++ funct3Of w ++ 0#5 ++ opcodeOf w := by
  refine BitVec.eq_of_getLsbD_eq fun k hk => ?_
  simp only [funct3Of, opcodeOf, BitVec.getLsbD_and, BitVec.getLsbD_append, BitVec.getLsbD_extractLsb']
  interval_cases k <;> simp

theorem mask_opcode (w : Word) : w &&& 0x0000007F#32 = 0#25 ++ opcodeOf w := by
  refine BitVec.eq_of_getLsbD_eq fun k hk => ?_
  simp only [opcodeOf, BitVec.getLsbD_and, BitVec.getLsbD_append, BitVec.getLsbD_extractLsb']
  interval_cases k <;> simp

end Sys2Proof

namespace Sys2Proof.Laws.EncodeMatchesTable

/-- The word of `i` lies in the table's row of `i` (spec/opcode_table.json `match` and `mask`). -/
def Statement (i : Instr) : Prop := encode i &&& (rowOf i).mask = (rowOf i).pattern

theorem add (rd rs1 rs2 : RegIdx) : Statement (.add rd rs1 rs2) :=
  (mask_funct7_funct3_opcode _).trans (by simp [encode, rowOf])

theorem sub (rd rs1 rs2 : RegIdx) : Statement (.sub rd rs1 rs2) :=
  (mask_funct7_funct3_opcode _).trans (by simp [encode, rowOf])

theorem mul (rd rs1 rs2 : RegIdx) : Statement (.mul rd rs1 rs2) :=
  (mask_funct7_funct3_opcode _).trans (by simp [encode, rowOf])

theorem div (rd rs1 rs2 : RegIdx) : Statement (.div rd rs1 rs2) :=
  (mask_funct7_funct3_opcode _).trans (by simp [encode, rowOf])

theorem lb (rd rs1 : RegIdx) (imm : Word) : Statement (.lb rd rs1 imm) :=
  (mask_funct3_opcode _).trans (by simp [encode, rowOf])

theorem lh (rd rs1 : RegIdx) (imm : Word) : Statement (.lh rd rs1 imm) :=
  (mask_funct3_opcode _).trans (by simp [encode, rowOf])

theorem lw (rd rs1 : RegIdx) (imm : Word) : Statement (.lw rd rs1 imm) :=
  (mask_funct3_opcode _).trans (by simp [encode, rowOf])

theorem addi (rd rs1 : RegIdx) (imm : Word) : Statement (.addi rd rs1 imm) :=
  (mask_funct3_opcode _).trans (by simp [encode, rowOf])

theorem ori (rd rs1 : RegIdx) (imm : Word) : Statement (.ori rd rs1 imm) :=
  (mask_funct3_opcode _).trans (by simp [encode, rowOf])

theorem andi (rd rs1 : RegIdx) (imm : Word) : Statement (.andi rd rs1 imm) :=
  (mask_funct3_opcode _).trans (by simp [encode, rowOf])

theorem sb (rs2 rs1 : RegIdx) (imm : Word) : Statement (.sb rs2 rs1 imm) :=
  (mask_funct3_opcode _).trans (by simp [encode, rowOf])

theorem sh (rs2 rs1 : RegIdx) (imm : Word) : Statement (.sh rs2 rs1 imm) :=
  (mask_funct3_opcode _).trans (by simp [encode, rowOf])

theorem sw (rs2 rs1 : RegIdx) (imm : Word) : Statement (.sw rs2 rs1 imm) :=
  (mask_funct3_opcode _).trans (by simp [encode, rowOf])

theorem lui (rd : RegIdx) (imm : Word) : Statement (.lui rd imm) :=
  (mask_opcode _).trans (by simp [encode, rowOf])

theorem auipc (rd : RegIdx) (imm : Word) : Statement (.auipc rd imm) :=
  (mask_opcode _).trans (by simp [encode, rowOf])

theorem jal (rd : RegIdx) (imm : Word) : Statement (.jal rd imm) :=
  (mask_opcode _).trans (by simp [encode, rowOf])

theorem jalr (rd rs1 : RegIdx) (imm : Word) : Statement (.jalr rd rs1 imm) :=
  (mask_funct3_opcode _).trans (by simp [encode, rowOf])

theorem beq (rs1 rs2 : RegIdx) (imm : Word) : Statement (.beq rs1 rs2 imm) :=
  (mask_funct3_opcode _).trans (by simp [encode, rowOf])

theorem bne (rs1 rs2 : RegIdx) (imm : Word) : Statement (.bne rs1 rs2 imm) :=
  (mask_funct3_opcode _).trans (by simp [encode, rowOf])

theorem blt (rs1 rs2 : RegIdx) (imm : Word) : Statement (.blt rs1 rs2 imm) :=
  (mask_funct3_opcode _).trans (by simp [encode, rowOf])

theorem bge (rs1 rs2 : RegIdx) (imm : Word) : Statement (.bge rs1 rs2 imm) :=
  (mask_funct3_opcode _).trans (by simp [encode, rowOf])

theorem bltu (rs1 rs2 : RegIdx) (imm : Word) : Statement (.bltu rs1 rs2 imm) :=
  (mask_funct3_opcode _).trans (by simp [encode, rowOf])

theorem bgeu (rs1 rs2 : RegIdx) (imm : Word) : Statement (.bgeu rs1 rs2 imm) :=
  (mask_funct3_opcode _).trans (by simp [encode, rowOf])

end Sys2Proof.Laws.EncodeMatchesTable
end

