-- ==== Sys2Proof/Tests/Slice0.lean ====
section
/-! SUPPORT. Tests: ill-formed terms refused, words of the spec decoded, one step of each instruction on the spec's vectors (spec 95,
MEM_WORDS = 256, HAS_MULDIV = true), and for each obligation with hypotheses a witness that meets them. -/

namespace Sys2Proof.Tests
open Sys2Proof Sys2Proof.Machine

/-- The parameters spec 95 fixes for its vectors. -/
def small : Config := ⟨256, true⟩

/-- The same machine without MUL and DIV. -/
def smallWithout : Config := ⟨256, false⟩

/-- Registers poked into a machine. -/
def pokeRegs (s : State) : List (RegIdx × Word) → State
  | [] => s
  | (i, v) :: rest => pokeRegs (s.writeReg i v) rest

/-- Cells poked into a memory. -/
def pokeCells (m : Memory) : List (Nat × Word) → Memory
  | [] => m
  | (a, v) :: rest => pokeCells (putCell m a v) rest

/-- An idle machine with the given registers, `pc` and cells. -/
def idleAt (c : Config) (regs : List (RegIdx × Word)) (pc : Word) (cells : List (Nat × Word)) : State :=
  ((pokeRegs (hostReset c) regs).setMem (pokeCells [] cells)).setPc pc

/-- A running machine with the given registers, `pc` and cells, the word `w` in cell `pc`, and the bound just above it. -/
def start (regs : List (RegIdx × Word)) (pc : Word) (cells : List (Nat × Word)) (w : Word) : State :=
  placeFetchWord (idleAt small regs pc cells) w

/-- The next state of an outcome, if it is one. -/
def nextOf : Host.Outcome State Fault Refusal → Option State
  | .next t => some t
  | .fault _ => none
  | .refused _ => none

/-- The stop of an outcome, if it is one. -/
def faultOf : Host.Outcome State Fault Refusal → Option Fault
  | .next _ => none
  | .fault f => some f
  | .refused _ => none

/-- The refusal of an outcome, if it is one. -/
def refusalOf : Host.Outcome State Fault Refusal → Option Refusal
  | .next _ => none
  | .fault _ => none
  | .refused r => some r

/-- A register and `pc` after one step. -/
def regAfter (s : State) (r : RegIdx) : Option (Word × Word) := (nextOf (step s)).map fun t => (t.readReg r, t.pc)

/-- A cell and `pc` after one step. -/
def cellAfter (s : State) (a : Nat) : Option (Word × Word) := (nextOf (step s)).map fun t => (cellAt t.mem a, t.pc)

/-- `pc` after one step. -/
def pcAfter (s : State) : Option Word := (nextOf (step s)).map fun t => t.pc

/-- `status` and `pc` after one step. -/
def statusAfter (s : State) : Option (Status × Word) := (nextOf (step s)).map fun t => (t.status, t.pc)

/-! ## WellFormed refuses what no word can spell (ranges of spec 30 R83 to R87) -/

theorem test_ill_formed_i_above :
    (Instr.addi 1 1 2048#32).wellFormed = false := by decide

theorem test_ill_formed_i_below :
    (Instr.jalr 1 1 0xFFFFF7FF#32).wellFormed = false := by decide

theorem test_ill_formed_s_above :
    (Instr.sw 1 1 2048#32).wellFormed = false := by decide

theorem test_ill_formed_b_above :
    (Instr.beq 1 1 4096#32).wellFormed = false := by decide

theorem test_ill_formed_b_odd :
    (Instr.bne 1 1 3#32).wellFormed = false := by decide

theorem test_ill_formed_u_low_bits :
    (Instr.lui 1 0x00000800#32).wellFormed = false := by decide

theorem test_ill_formed_j_above :
    (Instr.jal 1 1048576#32).wellFormed = false := by decide

theorem test_ill_formed_j_odd :
    (Instr.jal 1 1#32).wellFormed = false := by decide

theorem test_well_formed_extremes :
    (Instr.addi 1 1 0xFFFFF800#32).wellFormed = true ∧ (Instr.beq 1 1 0xFFFFF000#32).wellFormed = true ∧
      (Instr.jal 1 0x000FFFFE#32).wellFormed = true ∧ (Instr.lui 1 0xFFFFF000#32).wellFormed = true := by decide

/-! ## Decoding: a word of the spec for each constructor (spec 95 B2 and part C; spec 43 to 48) -/

theorem test_decode_add :
    decode false 0x002081B3#32 = .ok (.add 3 1 2) ∧ decode true 0x002081B3#32 = .ok (.add 3 1 2) := by decide

theorem test_decode_sub :
    decode false 0x402081B3#32 = .ok (.sub 3 1 2) ∧ decode true 0x402081B3#32 = .ok (.sub 3 1 2) := by decide

theorem test_decode_lb :
    decode false 0x00008183#32 = .ok (.lb 3 1 0#32) ∧ decode true 0x00008183#32 = .ok (.lb 3 1 0#32) := by decide

theorem test_decode_lh :
    decode false 0x00009183#32 = .ok (.lh 3 1 0#32) ∧ decode true 0x00009183#32 = .ok (.lh 3 1 0#32) := by decide

theorem test_decode_lw :
    decode false 0xFFF0A183#32 = .ok (.lw 3 1 0xFFFFFFFF#32) ∧ decode true 0xFFF0A183#32 = .ok (.lw 3 1 0xFFFFFFFF#32) := by decide

theorem test_decode_addi :
    decode false 0x7FF08193#32 = .ok (.addi 3 1 2047#32) ∧ decode true 0x7FF08193#32 = .ok (.addi 3 1 2047#32) := by decide

theorem test_decode_ori :
    decode false 0x8000E193#32 = .ok (.ori 3 1 0xFFFFF800#32) ∧ decode true 0x8000E193#32 = .ok (.ori 3 1 0xFFFFF800#32) := by decide

theorem test_decode_andi :
    decode false 0xF000F193#32 = .ok (.andi 3 1 0xFFFFFF00#32) ∧ decode true 0xF000F193#32 = .ok (.andi 3 1 0xFFFFFF00#32) := by decide

theorem test_decode_sb :
    decode false 0x00208023#32 = .ok (.sb 2 1 0#32) ∧ decode true 0x00208023#32 = .ok (.sb 2 1 0#32) := by decide

theorem test_decode_sh :
    decode false 0x00209023#32 = .ok (.sh 2 1 0#32) ∧ decode true 0x00209023#32 = .ok (.sh 2 1 0#32) := by decide

theorem test_decode_sw :
    decode false 0xFE20AFA3#32 = .ok (.sw 2 1 0xFFFFFFFF#32) ∧ decode true 0xFE20AFA3#32 = .ok (.sw 2 1 0xFFFFFFFF#32) := by decide

theorem test_decode_lui :
    decode false 0xFFFFF2B7#32 = .ok (.lui 5 0xFFFFF000#32) ∧ decode true 0xFFFFF2B7#32 = .ok (.lui 5 0xFFFFF000#32) := by decide

theorem test_decode_auipc :
    decode false 0x00001317#32 = .ok (.auipc 6 0x00001000#32) ∧ decode true 0x00001317#32 = .ok (.auipc 6 0x00001000#32) := by decide

theorem test_decode_jal :
    decode false 0x001000EF#32 = .ok (.jal 1 2048#32) ∧ decode true 0x001000EF#32 = .ok (.jal 1 2048#32) := by decide

theorem test_decode_jalr :
    decode false 0x003280E7#32 = .ok (.jalr 1 5 3#32) ∧ decode true 0x003280E7#32 = .ok (.jalr 1 5 3#32) := by decide

theorem test_decode_beq :
    decode false 0x7E208FE3#32 = .ok (.beq 1 2 4094#32) ∧ decode true 0x7E208FE3#32 = .ok (.beq 1 2 4094#32) := by decide

theorem test_decode_bne :
    decode false 0x00209463#32 = .ok (.bne 1 2 8#32) ∧ decode true 0x00209463#32 = .ok (.bne 1 2 8#32) := by decide

theorem test_decode_blt :
    decode false 0x0020C463#32 = .ok (.blt 1 2 8#32) ∧ decode true 0x0020C463#32 = .ok (.blt 1 2 8#32) := by decide

theorem test_decode_bge :
    decode false 0x0020D463#32 = .ok (.bge 1 2 8#32) ∧ decode true 0x0020D463#32 = .ok (.bge 1 2 8#32) := by decide

theorem test_decode_bltu :
    decode false 0x0020E463#32 = .ok (.bltu 1 2 8#32) ∧ decode true 0x0020E463#32 = .ok (.bltu 1 2 8#32) := by decide

theorem test_decode_bgeu :
    decode false 0x0020F463#32 = .ok (.bgeu 1 2 8#32) ∧ decode true 0x0020F463#32 = .ok (.bgeu 1 2 8#32) := by decide

theorem test_decode_mul :
    decode true 0x022081B3#32 = .ok (.mul 3 1 2) ∧ decode false 0x022081B3#32 = .error ⟨.funct7, 1⟩ := by decide

theorem test_decode_div :
    decode true 0x0220C1B3#32 = .ok (.div 3 1 2) ∧ decode false 0x0220C1B3#32 = .error ⟨.funct7, 1⟩ := by decide

theorem test_decode_op_faults :
    decode true 0x002091B3#32 = .error ⟨.funct3, 1⟩ ∧ decode true 0x4020D1B3#32 = .error ⟨.funct3, 5⟩ ∧
      decode true 0x042081B3#32 = .error ⟨.funct7, 2⟩ ∧ decode true 0x0220E1B3#32 = .error ⟨.funct3, 6⟩ := by decide

theorem test_decode_funct3_faults :
    decode true 0x0000C183#32 = .error ⟨.funct3, 4⟩ ∧ decode true 0x0010C193#32 = .error ⟨.funct3, 4⟩ ∧
      decode true 0x0020B023#32 = .error ⟨.funct3, 3⟩ ∧ decode true 0x00009067#32 = .error ⟨.funct3, 1⟩ ∧
      decode true 0x0020A463#32 = .error ⟨.funct3, 2⟩ := by decide

theorem test_decode_opcode_faults :
    decode true 0x00000001#32 = .error ⟨.opcode, 1⟩ ∧ decode true 0x0FF0000F#32 = .error ⟨.opcode, 15⟩ ∧
      decode true 0x00100073#32 = .error ⟨.opcode, 115⟩ := by decide

/-- Spec 95 B1, row 4. -/
theorem test_immediates_of_one_word :
    immI 0xFE20AFA3#32 = 0xFFFFFFE2#32 ∧ immS 0xFE20AFA3#32 = 0xFFFFFFFF#32 ∧ immB 0xFE20AFA3#32 = 0xFFFFFFFE#32 ∧
      immU 0xFE20AFA3#32 = 0xFE20A000#32 ∧ immJ 0xFE20AFA3#32 = 0xFFF0A7E2#32 := by decide

/-- Spec 95 B1. -/
theorem test_encode_words :
    encode (.sw 2 1 0xFFFFFFFF#32) = 0xFE20AFA3#32 ∧ encode (.beq 1 2 2048#32) = 0x002080E3#32 ∧
      encode (.jal 1 0xFFF00000#32) = 0x800000EF#32 ∧ encode (.lui 5 0x12345000#32) = 0x123452B7#32 := by decide

theorem test_decode_table_word :
    decodeTableWord 32 0x00000013 = some (.addi 0 0 0#32) ∧ decodeTableWord 32 0x02004033 = some (.div 0 0 0) ∧
      decodeTableWord 32 0x00000000 = none := by decide

/-! ## One step of each instruction (spec 95 parts A and C, by the vector's number) -/

/-- Spec 95 C1-1. -/
theorem test_add_wraps :
    regAfter (start [(1, 0x7FFFFFFF#32), (2, 1#32)] 0#32 [] 0x002081B3#32) 3 = some (0x80000000#32, 1#32) := by decide

/-- Spec 95 C1-3. -/
theorem test_add_same_register :
    regAfter (start [(1, 21#32)] 0#32 [] 0x001080B3#32) 1 = some (42#32, 1#32) := by decide

/-- Spec 95 C1-6. -/
theorem test_sub_order :
    regAfter (start [(1, 0#32), (2, 1#32)] 0#32 [] 0x402081B3#32) 3 = some (0xFFFFFFFF#32, 1#32) := by decide

/-- Spec 95 C1-7. -/
theorem test_sub_negates_the_least :
    regAfter (start [(2, 0x80000000#32)] 0#32 [] 0x402001B3#32) 3 = some (0x80000000#32, 1#32) := by decide

/-- Spec 95 C2-6. -/
theorem test_mul_low_half :
    regAfter (start [(1, 123456#32), (2, 654321#32)] 0#32 [] 0x022081B3#32) 3 = some (0xCEDABE40#32, 1#32) := by decide

/-- Spec 95 C2-5. -/
theorem test_mul_signed :
    regAfter (start [(1, 0xFFFFFFFD#32), (2, 7#32)] 0#32 [] 0x022081B3#32) 3 = some (0xFFFFFFEB#32, 1#32) := by decide

/-- Spec 95 C2-9. -/
theorem test_div_toward_zero :
    regAfter (start [(1, 0xFFFFFFF9#32), (2, 2#32), (3, 0x55#32)] 0#32 [] 0x0220C1B3#32) 3 = some (0xFFFFFFFD#32, 1#32) := by decide

/-- Spec 95 C2-20. -/
theorem test_div_by_zero :
    (nextOf (step (start [(1, 30#32), (3, 0x55#32)] 0#32 [] 0x0220C1B3#32))).map (fun t => (t.status, t.readReg 3, t.pc)) =
      some (.faulted .arithmetic, 0x55#32, 0#32) := by decide

/-- Spec 95 C3-2. -/
theorem test_lw_negative_offset :
    regAfter (start [(1, 101#32)] 0#32 [(100, 0xDEADBEEF#32)] 0xFFF0A183#32) 3 = some (0xDEADBEEF#32, 1#32) := by decide

/-- Spec 95 C3-14. -/
theorem test_lw_base_is_destination :
    regAfter (start [(1, 100#32)] 0#32 [(100, 7#32)] 0x0000A083#32) 1 = some (7#32, 1#32) := by decide

/-- Spec 95 C3-5. -/
theorem test_lh_ignores_the_upper_half :
    regAfter (start [(1, 100#32)] 0#32 [(100, 0x12348000#32)] 0x00009183#32) 3 = some (0xFFFF8000#32, 1#32) := by decide

/-- Spec 95 C3-6. -/
theorem test_lh_positive :
    regAfter (start [(1, 100#32)] 0#32 [(100, 0xFFFF0001#32)] 0x00009183#32) 3 = some (1#32, 1#32) := by decide

/-- Spec 95 C3-10. -/
theorem test_lb_ignores_the_upper_bits :
    regAfter (start [(1, 100#32)] 0#32 [(100, 0x12345680#32)] 0x00008183#32) 3 = some (0xFFFFFF80#32, 1#32) := by decide

/-- Spec 95 C3-11. -/
theorem test_lb_positive :
    regAfter (start [(1, 100#32)] 0#32 [(100, 0xFFFFFF01#32)] 0x00008183#32) 3 = some (1#32, 1#32) := by decide

/-- Spec 95 C4-2. -/
theorem test_addi_wraps :
    regAfter (start [(1, 0x7FFFFFFF#32)] 0#32 [] 0x7FF08193#32) 3 = some (0x800007FE#32, 1#32) := by decide

/-- Spec 95 C4-3. -/
theorem test_addi_negative :
    regAfter (start [(1, 0#32)] 0#32 [] 0x80008193#32) 3 = some (0xFFFFF800#32, 1#32) := by decide

/-- Spec 95 C4-7. -/
theorem test_andi_sign_extends :
    regAfter (start [(1, 0x12345678#32)] 0#32 [] 0xF000F193#32) 3 = some (0x12345600#32, 1#32) := by decide

/-- Spec 95 C4-12. -/
theorem test_ori_sign_extends :
    regAfter (start [(1, 0x12345678#32)] 0#32 [] 0x8000E193#32) 3 = some (0xFFFFFE78#32, 1#32) := by decide

/-- Spec 95 C5-2. -/
theorem test_sw_negative_offset :
    cellAfter (start [(1, 100#32), (2, 0xCAFEBABE#32)] 0#32 [] 0xFE20AFA3#32) 99 = some (0xCAFEBABE#32, 1#32) := by decide

/-- Spec 95 C5-10. -/
theorem test_sw_zero :
    cellAfter (start [(1, 100#32)] 0#32 [(100, 0xAAAAAAAA#32)] 0x0000A023#32) 100 = some (0#32, 1#32) := by decide

/-- Spec 95 C5-3. -/
theorem test_sh_replaces_the_cell :
    cellAfter (start [(1, 100#32), (2, 0x0002869F#32)] 0#32 [(100, 0xAAAAAAAA#32)] 0x00209023#32) 100 = some (0x0000869F#32, 1#32) := by decide

/-- Spec 95 C5-6. -/
theorem test_sb_replaces_the_cell :
    cellAfter (start [(1, 100#32), (2, 0x000003E8#32)] 0#32 [(100, 0xAAAAAAAA#32)] 0x00208023#32) 100 = some (0x000000E8#32, 1#32) := by decide

/-- Spec 95 C5-8. -/
theorem test_sb_masks_to_zero :
    cellAfter (start [(1, 100#32), (2, 0x00000100#32)] 0#32 [(100, 0xAAAAAAAA#32)] 0x00208023#32) 100 = some (0#32, 1#32) := by decide

/-- Spec 95 C6-1. -/
theorem test_lui_ignores_pc :
    regAfter (start [] 3#32 [] 0x123452B7#32) 5 = some (0x12345000#32, 4#32) := by decide

/-- Spec 95 C6-5. -/
theorem test_auipc_adds_pc :
    regAfter (start [] 2#32 [] 0x00001317#32) 6 = some (0x00001002#32, 3#32) := by decide

/-- Spec 95 C6-7. -/
theorem test_auipc_wraps :
    regAfter (start [] 10#32 [] 0xFFFFF317#32) 6 = some (0xFFFFF00A#32, 11#32) := by decide

/-- Spec 95 C7-1. -/
theorem test_jal_links :
    regAfter (start [] 1#32 [] 0x004000EF#32) 1 = some (2#32, 5#32) := by decide

/-- Spec 95 C7-5. -/
theorem test_jal_negative :
    regAfter (start [] 2#32 [] 0xFFDFF0EF#32) 1 = some (3#32, 0xFFFFFFFE#32) := by decide

/-- Spec 95 C7-8. -/
theorem test_jalr_reads_before_the_link :
    regAfter (start [(1, 8#32)] 3#32 [] 0x000080E7#32) 1 = some (4#32, 8#32) := by decide

/-- Spec 95 C7-7. -/
theorem test_jalr_keeps_bit_zero :
    regAfter (start [(5, 20#32)] 10#32 [] 0x003280E7#32) 1 = some (11#32, 23#32) := by decide

/-- Spec 95 C8. -/
theorem test_beq_taken :
    pcAfter (start [(1, 7#32), (2, 7#32)] 3#32 [] 0x00208463#32) = some 11#32 := by decide

/-- Spec 95 C8. -/
theorem test_beq_not_taken :
    pcAfter (start [(1, 7#32), (2, 8#32)] 3#32 [] 0x00208463#32) = some 4#32 := by decide

/-- Spec 95 C8. -/
theorem test_bne_not_taken :
    pcAfter (start [(1, 7#32), (2, 7#32)] 3#32 [] 0x00209463#32) = some 4#32 := by decide

/-- Spec 95 C8. -/
theorem test_bne_taken :
    pcAfter (start [(1, 7#32), (2, 8#32)] 3#32 [] 0x00209463#32) = some 11#32 := by decide

/-- Spec 95 C8. -/
theorem test_blt_taken :
    pcAfter (start [(1, 0x80000000#32), (2, 0x7FFFFFFF#32)] 3#32 [] 0x0020C463#32) = some 11#32 := by decide

/-- Spec 95 C8. -/
theorem test_blt_not_taken :
    pcAfter (start [(1, 1#32), (2, 0xFFFFFFFF#32)] 3#32 [] 0x0020C463#32) = some 4#32 := by decide

/-- Spec 95 C8. -/
theorem test_bge_not_taken :
    pcAfter (start [(1, 0x80000000#32), (2, 0x7FFFFFFF#32)] 3#32 [] 0x0020D463#32) = some 4#32 := by decide

/-- Spec 95 C8. -/
theorem test_bge_taken :
    pcAfter (start [(1, 7#32), (2, 7#32)] 3#32 [] 0x0020D463#32) = some 11#32 := by decide

/-- Spec 95 C8. -/
theorem test_bltu_taken :
    pcAfter (start [(1, 1#32), (2, 0xFFFFFFFF#32)] 3#32 [] 0x0020E463#32) = some 11#32 := by decide

/-- Spec 95 C8. -/
theorem test_bltu_not_taken :
    pcAfter (start [(1, 0x80000000#32), (2, 0x7FFFFFFF#32)] 3#32 [] 0x0020E463#32) = some 4#32 := by decide

/-- Spec 95 C8. -/
theorem test_bgeu_not_taken :
    pcAfter (start [(1, 1#32), (2, 0xFFFFFFFF#32)] 3#32 [] 0x0020F463#32) = some 4#32 := by decide

/-- Spec 95 C8. -/
theorem test_bgeu_taken :
    pcAfter (start [(1, 0x80000000#32), (2, 0x7FFFFFFF#32)] 3#32 [] 0x0020F463#32) = some 11#32 := by decide

/-! ## Faults, stops, reset and the host (spec 95 A12, C3, C5, C9) -/

/-- Spec 95 A12. -/
theorem test_zero_word_faults :
    statusAfter (start [] 0#32 [] 0x00000000#32) = some (.faulted (.decode ⟨.opcode, 0⟩), 0#32) := by decide

/-- Spec 95 C2-24. -/
theorem test_without_the_option_mul_faults :
    statusAfter (placeFetchWord (idleAt smallWithout [(1, 30#32), (2, 5#32)] 0#32 []) 0x022081B3#32) =
      some (.faulted (.decode ⟨.funct7, 1⟩), 0#32) := by decide

/-- Spec 95 C3-16, C3-17. -/
theorem test_load_outside_stops :
    faultOf (step (start [(1, 256#32)] 0#32 [] 0x0000A183#32)) = some (.outOfRange 256) ∧
      faultOf (step (start [(1, 0x7FFFFFFF#32)] 0#32 [] 0x0010A183#32)) = some (.outOfRange (-2147483648)) := by decide

/-- Spec 95 C5-9. -/
theorem test_store_outside_stops :
    faultOf (step (start [(1, 256#32), (2, 1#32)] 0#32 [] 0x0020A023#32)) = some (.outOfRange 256) := by decide

/-- Spec 95 C9-11. -/
theorem test_fetch_outside_stops :
    faultOf (step ((idleAt small [] 0xFFFFFFFF#32 []).setStatus .running)) = some (.outOfRange (-1)) := by decide

/-- Spec 95 C9-1. -/
theorem test_reset_values :
    hostReadStatus (hostReset small) = .idle ∧ hostReadPc (hostReset small) = 0#32 ∧
      hostReadRegister 7 (hostReset small) = .ok 0#32 ∧ hostReadMemory 9 (hostReset small) = .ok 0#32 := by decide

/-- Spec 95 C9-2. -/
theorem test_nothing_loaded_halts :
    (nextOf (hostExecute 1 (hostReset small))).map (fun t => (t.status, t.pc)) = some (.halted, 0#32) := by decide

/-- Spec 95 C9-4. -/
theorem test_load_then_read :
    (nextOf (hostLoad [0x00000013#32, 0x00000013#32] (hostReset small))).map
        (fun t => (hostReadMemory 1 t, t.instructionCount, t.status)) = some (.ok 0x00000013#32, 2#32, .idle) := by decide

/-- Spec 95 C9-5. -/
theorem test_register_zero_poked :
    (nextOf (hostWriteRegister 0 99#32 (hostReset small))).map (hostReadRegister 0) = some (.ok 0#32) := by decide

/-- Spec 95 C9-6, C9-7. -/
theorem test_host_refusals :
    refusalOf (hostWriteRegister 32 1#32 (hostReset small)) = some (.hostRegisterIndex 32) ∧
      hostReadMemory 256 (hostReset small) = .error (.hostAddress 256) := by decide

/-- Spec 50 R209: a second load is refused, also after the load of an empty program. -/
theorem test_second_load_refused :
    ((nextOf (hostLoad [] (hostReset small))).bind fun t => refusalOf (hostLoad [0x00000013#32] t)) =
      some .hostOncePerReset := by decide

/-- Spec 95 P2: the first word, placed after reset. -/
theorem test_first_instruction_after_reset :
    (nextOf (step (State.reset.withFetchWord 32 0x00500093))).map (fun t => (t.readReg 1, t.pc, t.status)) =
      some (5#32, 1#32, .running) := by decide

/-! ## Witnesses: for each obligation with hypotheses, a concrete state and operands that meet them all -/

/-- The machine of C1-1: `add x3, x1, x2` about to execute. -/
def addState : State := start [(1, 10#32), (2, 20#32)] 0#32 [] 0x002081B3#32

/-- `div x3, x1, x2` about to execute with divisor zero. -/
def divZeroState : State := start [(1, 30#32)] 0#32 [] 0x0220C1B3#32

/-- An idle machine with one `nop` loaded. -/
def loadedState : State := { hostReset small with mem := [(0, 0x00000013#32)], instructionCount := 1#32, loaded := true }

theorem test_about_to_add : AboutToExecute addState (.add 3 1 2) :=
  ⟨rfl, by decide, 0x002081B3#32, by decide, by decide⟩

theorem test_about_to_divide : AboutToExecute divZeroState (.div 3 1 2) :=
  ⟨rfl, by decide, 0x0220C1B3#32, by decide, by decide⟩

theorem test_running_state_has_the_invariant : addState.Inv :=
  ⟨by decide, by decide, by decide, by decide, by decide, by decide, by decide, trivial⟩

theorem test_loaded_state_has_the_invariant : loadedState.Inv :=
  ⟨by decide, by decide, by decide, by decide, by decide, by decide, by decide, rfl⟩

theorem test_witness_RegisterZeroIsHardwired :
    (hostReset small).status ≠ .running ∧ (Instr.addi 0 0 5#32).dest = some 0#5 ∧
      ∃ t, exec (.addi 0 0 5#32) addState = .next t := ⟨by decide, rfl, _, rfl⟩

theorem test_witness_RegistersArePlainStorage :
    (1#5 : RegIdx) ≠ 0#5 ∧ (31#5 : RegIdx) ≠ 0#5 ∧ (hostReset small).status ≠ .running ∧ 1 ≤ 1 ∧ 31 < 32 := by decide

/-- Two machines that differ in register 7 only, which ADD x3, x1, x2 does not read. -/
theorem test_witness_InstructionsUseOnlyTheirRegisters :
    addState.status = .running ∧ (addState.writeReg 7 9#32).status = addState.status ∧
      (addState.writeReg 7 9#32).pc = addState.pc ∧ (addState.writeReg 7 9#32).mem = addState.mem ∧
      (addState.writeReg 7 9#32).instructionCount = addState.instructionCount ∧
      (addState.writeReg 7 9#32).config = addState.config ∧
      (∀ r ∈ (Instr.add 3 1 2).sources, (addState.writeReg 7 9#32).readReg r = addState.readReg r) ∧
      (∃ t, exec (.add 3 1 2) addState = .next t ∧ t.status = .running) ∧
      (addState.writeReg 7 9#32).readReg 7 ≠ addState.readReg 7 :=
  ⟨rfl, rfl, rfl, rfl, rfl, rfl, by decide, ⟨_, rfl, rfl⟩, by decide⟩

theorem test_witness_ResetSatisfiesTheInvariant :
    (⟨2147483647, true⟩ : Config).Legal ∧ (⟨0, false⟩ : Config).Legal := by decide

theorem test_witness_StepKeepsTheInvariant : addState.Inv ∧ ∃ t, step addState = .next t :=
  ⟨test_running_state_has_the_invariant, _, rfl⟩

theorem test_witness_HostBeforeARunKeepsTheInvariant :
    (hostReset small).Inv ∧ (hostReset small).status = .idle ∧
      (∃ t, hostLoad [0x00000013#32] (hostReset small) = .next t) ∧
      (∃ t, hostWriteRegister 31 1#32 (hostReset small) = .next t) ∧
      (∃ t, hostWriteMemory 255 1#32 (hostReset small) = .next t) ∧ (∃ t, hostStart (hostReset small) = .next t) :=
  ⟨⟨by decide, by decide, by decide, by decide, by decide, by decide, by decide, rfl⟩, rfl, ⟨_, rfl⟩, ⟨_, rfl⟩, ⟨_, rfl⟩, ⟨_, rfl⟩⟩

theorem test_witness_ExecutionStartsAtCellZero :
    (∃ t ws, hostLoad ws (hostReset small) = .next t) ∧ (∃ t n v, hostWriteRegister n v (hostReset small) = .next t) ∧
      (∃ t a v, hostWriteMemory a v (hostReset small) = .next t) ∧
      loadedState.Inv ∧ loadedState.status = .idle ∧ 1 ≤ loadedState.instructionCount.toInt ∧
      ∃ t, hostStart loadedState = .next t :=
  ⟨⟨_, [], rfl⟩, ⟨_, 1, 1#32, rfl⟩, ⟨_, 0, 1#32, rfl⟩, test_loaded_state_has_the_invariant, rfl, by decide, _, rfl⟩

/-- The first and last word index of the array, and the two next to them outside. -/
theorem test_witness_MemReadKeepsTheLowBits :
    InArray addState 0#32 ∧ InArray addState 255#32 ∧ ¬ InArray addState 256#32 ∧ ¬ InArray addState 0xFFFFFFFF#32 := by
  decide

theorem test_witness_MemWriteReplacesTheWholeCell :
    InArray addState 255#32 ∧ (255 : Nat) ≠ 256 ∧ ¬ InArray addState 0x80000000#32 := by decide

theorem test_witness_LoadAfterStoreToTheSameCell :
    (3#5 : RegIdx) ≠ 0#5 ∧ InArray addState (addState.readReg 1 + 245#32) := by decide

/-- `sw x2, 0(x1)` in cell 0 with `x1 = 1`: it stores into the next cell. -/
theorem test_witness_StoredWordIsTheNextFetch :
    let s := start [(1, 1#32), (2, 0x00000013#32)] 0#32 [] 0x0020A023#32
    AboutToExecute s (.sw 2 1 0#32) ∧ s.readReg 1 + 0#32 = s.pc + 1#32 ∧ InArray s (s.pc + 1#32) :=
  ⟨⟨rfl, by decide, 0x0020A023#32, by decide, by decide⟩, by decide, by decide⟩

theorem test_witness_OnlyStoresChangeMemory :
    (∃ t, exec (.add 3 1 2) addState = .next t) ∧ isStore (.add 3 1 2) = false ∧
      (∃ t, exec (.sb 2 1 245#32) addState = .next t) ∧ isStore (.sb 2 1 245#32) = true ∧
      dataAddress (.sb 2 1 245#32) addState = some 255#32 ∧ (254 : Nat) ≠ (255#32 : Word).toInt.toNat :=
  ⟨⟨_, rfl⟩, rfl, ⟨_, rfl⟩, rfl, rfl, by decide⟩

/-- LW of cell 10 beside cell 11, a load outside the array, and an instruction that accesses no cell. -/
theorem test_witness_OtherCellsAreIrrelevant :
    (∀ addr, dataAddress (.lw 3 1 0#32) addState = some addr → InArray addState addr → addr.toInt.toNat ≠ 11) ∧
      (∀ addr, dataAddress (.lw 3 1 246#32) addState = some addr → InArray addState addr → addr.toInt.toNat ≠ 11) ∧
      (∀ addr, dataAddress (.add 3 1 2) addState = some addr → InArray addState addr → addr.toInt.toNat ≠ 11) ∧
      (∃ t, exec (.lw 3 1 0#32) addState = .next t) ∧ ∃ f, exec (.lw 3 1 246#32) addState = .fault f := by
  refine ⟨fun addr h _ => ?_, fun addr h _ => ?_, fun addr h _ => ?_, ⟨_, rfl⟩, ⟨_, rfl⟩⟩
  · cases h
    decide
  · cases h
    decide
  · cases h

/-- The highest bit of each field, in a word whose fields differ. -/
theorem test_witness_FieldsAreTheStatedBits :
    6 < 7 ∧ 4 < 5 ∧ 2 < 3 ∧ opcodeOf 0xFE20AFA3#32 = 0b0100011#7 ∧ rdOf 0xFE20AFA3#32 = 31 ∧
      funct3Of 0xFE20AFA3#32 = 2#3 ∧ rs1Of 0xFE20AFA3#32 = 1 ∧ rs2Of 0xFE20AFA3#32 = 2 ∧
      funct7Of 0xFE20AFA3#32 = 0b1111111#7 := by decide

theorem test_witness_ImmediatesAreTheStatedBits :
    0 < 32 ∧ 31 < 32 ∧ (∃ i, decode true 0xFFF08093#32 = .ok i) ∧ (∃ i, decode true 0xFE009FE3#32 = .ok i) ∧
      (∃ i, decode true 0x123452B7#32 = .ok i) ∧ ∃ i, decode true 0x004000EF#32 = .ok i :=
  ⟨by decide, by decide, ⟨.addi 1 1 0xFFFFFFFF#32, by decide⟩, ⟨.bne 1 0 0xFFFFFFFE#32, by decide⟩,
    ⟨.lui 5 0x12345000#32, by decide⟩, .jal 1 4#32, by decide⟩

theorem test_witness_StoreImmediateIsSignExtended : 31 < 32 ∧ decode true 0xFE20AFA3#32 = .ok (.sw 2 1 0xFFFFFFFF#32) := by
  decide

theorem test_witness_DecodeOfEncodeIsTheInstruction :
    (Instr.div 31 0 31).wellFormed = true ∧ (Instr.div 31 0 31).present true = true ∧
      (Instr.bgeu 31 0 0xFFFFF000#32).wellFormed = true ∧ (Instr.bgeu 31 0 0xFFFFF000#32).present false = true := by decide

theorem test_witness_EncodeOfDecodeIsTheWord :
    decode false 0x80208063#32 = .ok (.beq 1 2 0xFFFFF000#32) ∧ decode true 0x0220C033#32 = .ok (.div 0 1 2) := by decide

theorem test_witness_DecoderAgreesWithTheOpcodeTable :
    decode true 0x0220C1B3#32 = .ok (.div 3 1 2) ∧ rowOf (.div 0 0 0) ∈ opcodeTable ∧
      0x0220C1B3#32 &&& (rowOf (.div 0 0 0)).mask = (rowOf (.div 0 0 0)).pattern := by decide

theorem test_witness_DecodeFaultNamesTheFirstFailingField :
    decode true 0xFFFFFFFF#32 = .error ⟨.opcode, 127⟩ ∧ decode false 0x022081B3#32 = .error ⟨.funct7, 1⟩ ∧
      decode true 0x0220E1B3#32 = .error ⟨.funct3, 6⟩ := by decide

theorem test_witness_AbsentIntegerFormsFault :
    opcodeOf 0x0020F1B3#32 = 0b0110011#7 ∧ funct7Of 0x0020F1B3#32 = 0b0000000#7 ∧ funct3Of 0x0020F1B3#32 ≠ 0b000#3 ∧
      funct7Of 0x4020D1B3#32 = 0b0100000#7 ∧ funct3Of 0x4020D1B3#32 ≠ 0b000#3 ∧
      opcodeOf 0x0010C193#32 = 0b0010011#7 ∧
      funct3Of 0x0010C193#32 ∈ [0b001#3, 0b010#3, 0b011#3, 0b100#3, 0b101#3] := by decide

theorem test_witness_MulDivExistOnlyWithTheOption :
    opcodeOf 0x0220E1B3#32 = 0b0110011#7 ∧ funct7Of 0x0220E1B3#32 = 0b0000001#7 ∧ funct3Of 0x0220E1B3#32 ≠ 0b000#3 ∧
      funct3Of 0x0220E1B3#32 ≠ 0b100#3 := by decide

theorem test_witness_UpperImmediatesAndJalNeverFault :
    opcodeOf 0xFFFFF2B7#32 = 0b0110111#7 ∧ opcodeOf 0x00001317#32 = 0b0010111#7 ∧ opcodeOf 0xFFFFF06F#32 = 0b1101111#7 := by
  decide

theorem test_witness_StepRunsTheDecodedInstruction : AboutToExecute addState (.add 3 1 2) := test_about_to_add

/-- At the bound exactly; at the last cell below it with a word that does not decode; not running. -/
theorem test_witness_StepsThatRunNoInstruction :
    let ended := { loadedState with pc := 1#32, status := .running }
    let undecodable := start [] 0#32 [] 0#32
    (ended.status = .running ∧ ended.instructionCount.toInt ≤ ended.pc.toInt) ∧
      (undecodable.status = .running ∧ undecodable.pc.toInt < undecodable.instructionCount.toInt ∧
        undecodable.fetch = .ok 0#32 ∧ decode undecodable.config.hasMulDiv 0#32 = .error ⟨.opcode, 0⟩) ∧
      (hostReset small).status ≠ .running := by decide

/-- An unsafe step: LW of word index 256. -/
theorem test_witness_StepStopsExactlyOutsideTheArray :
    step (start [(1, 256#32)] 0#32 [] 0x0000A183#32) = .fault (.outOfRange 256) ∧ ∃ t, step addState = .next t :=
  ⟨rfl, _, rfl⟩

theorem test_witness_FaultsArePrecise :
    divZeroState.status = .running ∧ step divZeroState = .next (tookFault divZeroState .arithmetic) ∧
      (tookFault divZeroState .arithmetic).status = .faulted .arithmetic := ⟨rfl, rfl, rfl⟩

theorem test_witness_ArithmeticFaultIsDivisionByZeroOnly :
    divZeroState.status = .running ∧ (∃ t, step divZeroState = .next t) ∧ AboutToExecute divZeroState (.div 3 1 2) ∧
      divZeroState.readReg 2 = 0#32 ∧ (∃ t, step addState = .next t) :=
  ⟨rfl, ⟨_, rfl⟩, test_about_to_divide, by decide, _, rfl⟩

/-- A run that goes on, one that halts and one that faults. -/
theorem test_witness_RunEndsOnlyAtTheBoundOrOnAFault :
    addState.status = .running ∧ (∃ t, step addState = .next t ∧ t.status = .running) ∧
      (∃ t, step { loadedState with pc := 1#32, status := .running } = .next t ∧ t.status = .halted) ∧
      (∃ t, step divZeroState = .next t ∧ t.status = .faulted .arithmetic) :=
  ⟨rfl, ⟨_, rfl, rfl⟩, ⟨_, rfl, rfl⟩, _, rfl, rfl⟩

theorem test_witness_BoundAndParametersAreFixedInARun : ∃ t, step addState = .next t := ⟨_, rfl⟩

theorem test_witness_EachInstructionSetsPcOnce :
    addState.status = .running ∧ (∃ t, exec (.add 3 1 2) addState = .next t ∧ t.status = .running) ∧
      (∃ t, exec (.jal 1 4#32) addState = .next t ∧ t.status = .running) ∧
      (∃ t, exec (.jalr 1 1 0#32) addState = .next t ∧ t.status = .running) ∧
      (∃ t, exec (.beq 1 2 8#32) addState = .next t ∧ t.status = .running) :=
  ⟨rfl, ⟨_, rfl, rfl⟩, ⟨_, rfl, rfl⟩, ⟨_, rfl, rfl⟩, _, rfl, rfl⟩

/-- A jump and a branch that is not taken. -/
theorem test_witness_RelativeTransfersKeepParity :
    let j := start [] 1#32 [] 0x004000EF#32
    let b := start [(1, 7#32), (2, 8#32)] 3#32 [] 0x00208463#32
    AboutToExecute j (.jal 1 4#32) ∧ relativeOffset (.jal 1 4#32) ≠ none ∧ (∃ t, step j = .next t) ∧
      AboutToExecute b (.beq 1 2 8#32) ∧ relativeOffset (.beq 1 2 8#32) ≠ none ∧ ∃ t, step b = .next t :=
  ⟨⟨rfl, by decide, 0x004000EF#32, by decide, by decide⟩, by decide, ⟨_, rfl⟩,
    ⟨rfl, by decide, 0x00208463#32, by decide, by decide⟩, by decide, _, rfl⟩

/-- The spec's own divisions (spec 95 C2-9, C2-17, C2-18), the last two at the ends of the range. -/
theorem test_witness_QuotientRoundsTowardZero :
    (2#32 : Word) ≠ 0#32 ∧ ¬ ((0x80000000#32 : Word) = 0x80000000#32 ∧ (2#32 : Word) = 0xFFFFFFFF#32) ∧
      ¬ ((0x7FFFFFFF#32 : Word) = 0x80000000#32 ∧ (0xFFFFFFFF#32 : Word) = 0xFFFFFFFF#32) ∧
      sdiv 0xFFFFFFF9#32 2#32 = 0xFFFFFFFD#32 ∧ sdiv 0x80000000#32 2#32 = 0xC0000000#32 ∧
      sdiv 0x7FFFFFFF#32 0xFFFFFFFF#32 = 0x80000001#32 ∧
      (0 : Int) ≤ (7#32 : Word).toInt ∧ (0xFFFFFFF9#32 : Word).toInt ≤ 0 := by decide

theorem test_witness_JumpToItselfNeverEnds :
    let s := start [] 5#32 [] 0x0000006F#32
    s.status = .running ∧ fetchAllowed s = true ∧ s.fetch = .ok 0x0000006F#32 := by decide

/-- A program that fills the array, one a word longer, and the empty one. -/
theorem test_witness_LoadPlacesTheProgram :
    let s := hostReset ⟨2, true⟩
    s.status = .idle ∧ s.loaded = false ∧ [0x13#32, 0x13#32].length ≤ s.config.memWords ∧
      s.config.memWords < [0x13#32, 0x13#32, (0x13#32 : Word)].length ∧ ([] : List Word).length ≤ s.config.memWords := by decide

theorem test_witness_PeeksAndPokesActOnOnePlace :
    (hostReset small).status ≠ .running ∧ 0 < 32 ∧ 31 < 32 ∧ 255 < (hostReset small).config.memWords := by decide

theorem test_witness_HostOperationsOutsideTheirDomainAreRefused :
    addState.status = .running ∧ (hostReset small).status ≠ .running ∧ 32 ≤ 32 ∧ (hostReset small).config.memWords ≤ 256 ∧
      loadedState.status = .idle ∧ loadedState.loaded = true ∧
      ((hostReset small).setStatus .halted).status = .halted ∧
      ∃ f, ((hostReset small).setStatus (.faulted .arithmetic)).status = .faulted f :=
  ⟨rfl, by decide, by decide, by decide, rfl, by decide, rfl, _, rfl⟩

/-- One `nop` loaded and run to the end: two steps. -/
theorem test_witness_ExecuteKeepsTheInvariant :
    loadedState.Inv ∧ loadedState.status = .idle ∧ ∃ t, hostExecute 2 loadedState = .next t ∧ t.status = .halted :=
  ⟨test_loaded_state_has_the_invariant, rfl, _, rfl, rfl⟩

/-- The load of an empty program, a poke after it, and a run of nothing. -/
theorem test_witness_OneLoadAndOneRunPerReset :
    let t := (hostReset small).setLoaded true
    hostLoad [] (hostReset small) = .next t ∧ (∃ u, hostWriteRegister 31 1#32 t = .next u) ∧
      (∃ u, hostWriteMemory 255 1#32 t = .next u) ∧ (hostReset small).status = .idle ∧
      ∃ u, hostExecute 1 (hostReset small) = .next u := ⟨rfl, ⟨_, rfl⟩, ⟨_, rfl⟩, rfl, _, rfl⟩

/-! A zero-offset transfer of each kind (the words by spec 30 R82 and R96; equality is the boundary of BGE and BGEU). -/

theorem test_witness_ZeroOffsetTransfersNeverEnd :
    AboutToExecute (start [] 5#32 [] 0x0000006F#32) (.jal 0#5 0#32) :=
  ⟨rfl, by decide, 0x0000006F#32, by decide, by decide⟩

theorem test_witness_ZeroOffsetTransfersNeverEnd_beq :
    let s := start [(1, 7#32), (2, 7#32)] 5#32 [] 0x00208063#32
    AboutToExecute s (.beq 1 2 0#32) ∧ s.readReg 1 = s.readReg 2 :=
  ⟨⟨rfl, by decide, 0x00208063#32, by decide, by decide⟩, by decide⟩

theorem test_witness_ZeroOffsetTransfersNeverEnd_bne :
    let s := start [(1, 7#32), (2, 8#32)] 5#32 [] 0x00209063#32
    AboutToExecute s (.bne 1 2 0#32) ∧ s.readReg 1 ≠ s.readReg 2 :=
  ⟨⟨rfl, by decide, 0x00209063#32, by decide, by decide⟩, by decide⟩

theorem test_witness_ZeroOffsetTransfersNeverEnd_blt :
    let s := start [(1, 0xFFFFFFFF#32), (2, 1#32)] 5#32 [] 0x0020C063#32
    AboutToExecute s (.blt 1 2 0#32) ∧ (s.readReg 1).toInt < (s.readReg 2).toInt :=
  ⟨⟨rfl, by decide, 0x0020C063#32, by decide, by decide⟩, by decide⟩

theorem test_witness_ZeroOffsetTransfersNeverEnd_bge :
    let s := start [(1, 7#32), (2, 7#32)] 5#32 [] 0x0020D063#32
    AboutToExecute s (.bge 1 2 0#32) ∧ (s.readReg 2).toInt ≤ (s.readReg 1).toInt :=
  ⟨⟨rfl, by decide, 0x0020D063#32, by decide, by decide⟩, by decide⟩

theorem test_witness_ZeroOffsetTransfersNeverEnd_bltu :
    let s := start [(1, 1#32), (2, 0xFFFFFFFF#32)] 5#32 [] 0x0020E063#32
    AboutToExecute s (.bltu 1 2 0#32) ∧ (s.readReg 1).toNat < (s.readReg 2).toNat :=
  ⟨⟨rfl, by decide, 0x0020E063#32, by decide, by decide⟩, by decide⟩

theorem test_witness_ZeroOffsetTransfersNeverEnd_bgeu :
    let s := start [(1, 7#32), (2, 7#32)] 5#32 [] 0x0020F063#32
    AboutToExecute s (.bgeu 1 2 0#32) ∧ (s.readReg 2).toNat ≤ (s.readReg 1).toNat :=
  ⟨⟨rfl, by decide, 0x0020F063#32, by decide, by decide⟩, by decide⟩

theorem test_witness_MulWritesTheWrappedProduct : addState.config.hasMulDiv = true := rfl

theorem test_witness_DivWritesTheQuotientOrFaults :
    addState.config.hasMulDiv = true ∧ addState.readReg 2 ≠ 0#32 ∧ divZeroState.config.hasMulDiv = true ∧
      divZeroState.readReg 2 = 0#32 := by decide

/-- With `x1 = 10`: offset 245 reaches the last cell, 246 the first word index past it, -11 the first below it. -/
theorem test_witness_LwLoadsTheWholeCell :
    InArray addState (effectiveAddress addState 1 245#32) ∧ ¬ InArray addState (effectiveAddress addState 1 246#32) ∧
      ¬ InArray addState (effectiveAddress addState 1 0xFFFFFFF5#32) := by decide

theorem test_witness_LhAndLbLoadTheLowBitsSignExtended :
    InArray addState (effectiveAddress addState 1 0xFFFFFFF6#32) ∧ ¬ InArray addState (effectiveAddress addState 1 246#32) := by
  decide

theorem test_witness_SwStoresTheWholeRegister :
    InArray addState (effectiveAddress addState 1 245#32) ∧ ¬ InArray addState (effectiveAddress addState 1 246#32) := by decide

theorem test_witness_ShAndSbStoreTheLowBitsZeroExtended :
    InArray addState (effectiveAddress addState 1 0xFFFFFFF6#32) ∧ ¬ InArray addState (effectiveAddress addState 1 0xFFFFFFF5#32) := by
  decide

theorem test_witness_JalrLinksAndJumpsAbsolute : (0b001#3 : BitVec 3) ≠ 0b000#3 := by decide

end Sys2Proof.Tests
end

section
/-! PROOFS. The register file (spec 10 R22 to R26): what the host's register accesses answer, which registers an instruction
leaves alone, and that its result depends on its source registers only. Settles O1, O2 and O3. -/

namespace Sys2Proof.Machine

/-! The host's register accesses where they are accepted, and what reset leaves in a register. -/

theorem hostWriteRegister_accepted {s : State} {n : Nat} (v : Word) (hs : s.status ≠ .running) (hn : n < 32) :
    hostWriteRegister n v s = .next (s.writeReg (BitVec.ofNat 5 n) v) := by
  simp [hostWriteRegister, hostLocked, hs, hn]

theorem hostReadRegister_accepted {s : State} {n : Nat} (hs : s.status ≠ .running) (hn : n < 32) :
    hostReadRegister n s = .ok (s.readReg (BitVec.ofNat 5 n)) := by
  simp [hostReadRegister, hostLocked, hs, hn]

theorem readReg_hostReset (c : Config) (i : RegIdx) : (hostReset c).readReg i = 0#32 := by
  by_cases hi : i = 0#5 <;> simp [hostReset, State.resetWith, State.readReg, hi]

/-- Host indexes below 32 name different registers. -/
theorem regIdx_ofNat_ne {k n : Nat} (hk : k < 32) (hn : n < 32) (h : k ≠ n) : BitVec.ofNat 5 k ≠ BitVec.ofNat 5 n := by
  intro e
  have hv : k % 32 = n % 32 := congrArg BitVec.toNat e
  omega

/-! The frame: a register that is not the destination. -/

/-- An instruction that answers a next state leaves every register but its destination as it was. -/
theorem exec_frame_registers {i : Instr} {s t : State} {r : RegIdx} (h : exec i s = .next t) (hr : i.dest ≠ some r) :
    t.readReg r = s.readReg r := by
  have he := exec_effect i s
  rw [h] at he
  cases he with
  | register rd v p hd hs =>
    have hne : r ≠ rd := fun e => hr (e ▸ hd)
    simp [readReg_writeReg_ne _ _ _ _ hne]
  | branch | store | divByZero | absent => simp

/-! The result of an instruction is a function of its source registers and of the state beside the registers. -/

/-- The two machines agree on the state beside the registers that an instruction can read. -/
structure AgreeBesideRegs (s s' : State) : Prop where
  pc : s'.pc = s.pc
  mem : s'.mem = s.mem
  status : s'.status = s.status
  config : s'.config = s.config

/-- The two outcomes are of the same kind and show the same result: the same stop, or next states with the same `pc`, memory and
status and, if the machine still runs, the same destination register `d`. -/
inductive SameResult (d : Option RegIdx) : Host.Outcome State Fault Refusal → Host.Outcome State Fault Refusal → Prop where
  | next {t t' : State} (hpc : t'.pc = t.pc) (hmem : t'.mem = t.mem) (hstatus : t'.status = t.status)
      (hdest : t.status = .running → ∀ rd, d = some rd → t'.readReg rd = t.readReg rd) :
      SameResult d (.next t) (.next t')
  | fault (f : Fault) : SameResult d (.fault f) (.fault f)

section
variable {s s' : State} {rs1 rs2 : RegIdx}

/-- What is computed from one source register agrees. -/
theorem apply_source {α : Type} (f : Word → α) (hr : ∀ r ∈ [rs1], s'.readReg r = s.readReg r) :
    f (s'.readReg rs1) = f (s.readReg rs1) := by
  rw [hr rs1 (by simp)]

/-- What is computed from two source registers agrees. -/
theorem apply_sources {α : Type} (f : Word → Word → α) (hr : ∀ r ∈ [rs1, rs2], s'.readReg r = s.readReg r) :
    f (s'.readReg rs1) (s'.readReg rs2) = f (s.readReg rs1) (s.readReg rs2) := by
  rw [hr rs1 (by simp), hr rs2 (by simp)]

/-- A write of the same value to the same register makes it read the same, register 0 included. -/
theorem readReg_writeReg_congr (s s' : State) (rd : RegIdx) (v : Word) :
    (s'.writeReg rd v).readReg rd = (s.writeReg rd v).readReg rd := by
  by_cases hd : rd = 0#5
  · simp [hd]
  · simp [readReg_writeReg_same _ _ _ hd]

/-- The same value written to the destination and the same `pc` set. -/
theorem writeReg_setPc_sameResult (h : AgreeBesideRegs s s') (rd : RegIdx) (v p : Word) :
    SameResult (some rd) (.next ((s.writeReg rd v).setPc p)) (.next ((s'.writeReg rd v).setPc p)) :=
  .next rfl (by simp [h.mem]) (by simp [h.status]) (by simp [readReg_writeReg_congr s s'])

theorem writeAndAdvance_sameResult (h : AgreeBesideRegs s s') {rd : RegIdx} {v v' : Word} (hv : v' = v) :
    SameResult (some rd) (writeAndAdvance rd v s) (writeAndAdvance rd v' s') := by
  rw [writeAndAdvance_eq, writeAndAdvance_eq, hv, h.pc]
  exact writeReg_setPc_sameResult h rd v _

theorem linkAndJump_sameResult (h : AgreeBesideRegs s s') {rd : RegIdx} {p p' : Word} (hp : p' = p) :
    SameResult (some rd) (linkAndJump rd p s) (linkAndJump rd p' s') := by
  rw [linkAndJump_eq, linkAndJump_eq, hp, h.pc]
  exact writeReg_setPc_sameResult h rd _ p

theorem branchIf_sameResult (h : AgreeBesideRegs s s') {c c' : Bool} {imm : Word} (hc : c' = c) :
    SameResult none (branchIf c imm s) (branchIf c' imm s') := by
  rw [branchIf_eq, branchIf_eq, hc, h.pc]
  exact .next rfl h.mem h.status (by simp)

/-- A fault taken by both machines; the destination is not written. -/
theorem raise_sameResult (h : AgreeBesideRegs s s') (d : Option RegIdx) (f : HwFault) :
    SameResult d (.next (s.raise f)) (.next (s'.raise f)) :=
  .next h.pc h.mem rfl (by simp)

theorem effectiveAddress_congr (hr : s'.readReg rs1 = s.readReg rs1) (imm : Word) :
    effectiveAddress s' rs1 imm = effectiveAddress s rs1 imm := by
  simp [effectiveAddress, hr]

theorem loadSigned_sameResult (h : AgreeBesideRegs s s') {n : Width} {rd : RegIdx} {imm : Word}
    (hr : ∀ r ∈ [rs1], s'.readReg r = s.readReg r) :
    SameResult (some rd) (loadSigned n rd rs1 imm s) (loadSigned n rd rs1 imm s') := by
  have ha := effectiveAddress_congr (hr rs1 (by simp)) imm
  by_cases hin : InArray s (effectiveAddress s rs1 imm)
  · rw [loadSigned_inside _ _ _ _ s hin, loadSigned_inside _ _ _ _ s' (by rwa [ha, h.config]), ha, h.mem, h.pc]
    exact writeReg_setPc_sameResult h rd _ _
  · rw [loadSigned_outside _ _ _ _ s hin, loadSigned_outside _ _ _ _ s' (by rwa [ha, h.config]), ha]
    exact .fault _

theorem storeLow_sameResult (h : AgreeBesideRegs s s') {n : Width} {imm : Word}
    (hr : ∀ r ∈ [rs1, rs2], s'.readReg r = s.readReg r) :
    SameResult none (storeLow n rs2 rs1 imm s) (storeLow n rs2 rs1 imm s') := by
  have ha := effectiveAddress_congr (hr rs1 (by simp)) imm
  by_cases hin : InArray s (effectiveAddress s rs1 imm)
  · rw [storeLow_inside _ _ _ _ s hin, storeLow_inside _ _ _ _ s' (by rwa [ha, h.config]), ha, h.mem, h.pc,
      hr rs2 (by simp)]
    exact .next rfl rfl h.status (by simp)
  · rw [storeLow_outside _ _ _ _ s hin, storeLow_outside _ _ _ _ s' (by rwa [ha, h.config]), ha]
    exact .fault _

theorem execMul_sameResult (h : AgreeBesideRegs s s') {rd : RegIdx}
    (hr : ∀ r ∈ [rs1, rs2], s'.readReg r = s.readReg r) :
    SameResult (some rd) (execMul rd rs1 rs2 s) (execMul rd rs1 rs2 s') := by
  simp only [execMul, h.config]
  split
  · exact writeAndAdvance_sameResult h (apply_sources (· * ·) hr)
  · exact raise_sameResult h _ _

theorem execDiv_sameResult (h : AgreeBesideRegs s s') {rd : RegIdx}
    (hr : ∀ r ∈ [rs1, rs2], s'.readReg r = s.readReg r) :
    SameResult (some rd) (execDiv rd rs1 rs2 s) (execDiv rd rs1 rs2 s') := by
  have hdivisor : s'.readReg rs2 = s.readReg rs2 := hr rs2 (by simp)
  by_cases hm : s.config.hasMulDiv = true
  · by_cases hz : s.readReg rs2 = 0#32
    · simp only [execDiv, h.config, hm, hdivisor, hz, if_true]
      exact raise_sameResult h _ _
    · simp only [execDiv, h.config, hm, hdivisor, hz, if_true, if_false]
      exact writeAndAdvance_sameResult h (by rw [hr rs1 (by simp)])
  · simp only [execDiv, h.config, hm]
    exact raise_sameResult h _ _

/-- An instruction reads no register but its sources (spec 10 R26). -/
theorem exec_sameResult (h : AgreeBesideRegs s s') (i : Instr) (hr : ∀ r ∈ i.sources, s'.readReg r = s.readReg r) :
    SameResult i.dest (exec i s) (exec i s') := by
  cases i with
  | add => exact writeAndAdvance_sameResult h (apply_sources (· + ·) hr)
  | sub => exact writeAndAdvance_sameResult h (apply_sources (· - ·) hr)
  | mul => exact execMul_sameResult h hr
  | div => exact execDiv_sameResult h hr
  | lb | lh | lw => exact loadSigned_sameResult h hr
  | addi _ _ imm => exact writeAndAdvance_sameResult h (apply_source (· + imm) hr)
  | ori _ _ imm => exact writeAndAdvance_sameResult h (apply_source (· ||| imm) hr)
  | andi _ _ imm => exact writeAndAdvance_sameResult h (apply_source (· &&& imm) hr)
  | sb | sh | sw => exact storeLow_sameResult h hr
  | lui => exact writeAndAdvance_sameResult h rfl
  | auipc _ imm => exact writeAndAdvance_sameResult h (congrArg (imm + ·) h.pc)
  | jal _ imm => exact linkAndJump_sameResult h (congrArg (· + imm) h.pc)
  | jalr _ _ imm => exact linkAndJump_sameResult h (apply_source (· + imm) hr)
  | beq => exact branchIf_sameResult h (apply_sources condEq hr)
  | bne => exact branchIf_sameResult h (apply_sources (fun a b => !condEq a b) hr)
  | blt => exact branchIf_sameResult h (apply_sources condLtSigned hr)
  | bge => exact branchIf_sameResult h (apply_sources (fun a b => !condLtSigned a b) hr)
  | bltu => exact branchIf_sameResult h (apply_sources condLtUnsigned hr)
  | bgeu => exact branchIf_sameResult h (apply_sources (fun a b => !condLtUnsigned a b) hr)

end

/-- Settles O1: register 0 is no storage, and by the frame an instruction whose `rd` is 0 changes no other register. -/
theorem registerZeroIsHardwired : Obligations.RegisterZeroIsHardwired := by
  intro s
  refine ⟨readReg_zero s, writeReg_zero s, fun v hs => hostWriteRegister_accepted v hs (by decide), ?_⟩
  intro i t hd he r
  by_cases hr : r = 0#5
  · rw [hr, readReg_zero, readReg_zero]
  · have hne : i.dest ≠ some r := by simpa [hd] using Ne.symm hr
    exact exec_frame_registers he hne

/-- Settles O2, from what a read sees of a write and what the host's accesses answer. -/
theorem registersArePlainStorage : Obligations.RegistersArePlainStorage := by
  refine ⟨fun s i v hi => ?_, fun s n v hs hpos hn => ?_, readReg_hostReset⟩
  · exact ⟨readReg_writeReg_same s i v hi, fun r hr => readReg_writeReg_ne s i r v hr, by simp⟩
  · have ht : (s.writeReg (BitVec.ofNat 5 n) v).status ≠ .running := by simpa using hs
    refine ⟨_, hostWriteRegister_accepted v hs hn, ?_, fun k hk hkn => ?_⟩
    · have hne : BitVec.ofNat 5 n ≠ 0#5 := regIdx_ofNat_ne hn (by decide) (by omega)
      rw [hostReadRegister_accepted ht hn, readReg_writeReg_same _ _ _ hne]
    · rw [hostReadRegister_accepted ht hk, hostReadRegister_accepted hs hk,
        readReg_writeReg_ne _ _ _ _ (regIdx_ofNat_ne hk hn hkn)]

/-- Settles O3: the results agree by `exec_sameResult`, and each machine keeps its other registers by the frame. -/
theorem instructionsUseOnlyTheirRegisters : Obligations.InstructionsUseOnlyTheirRegisters := by
  intro i s s' _ hstatus hpc hmem _ hconfig hr
  have hsame := exec_sameResult ⟨hpc, hmem, hstatus, hconfig⟩ i hr
  generalize ho : exec i s = o at hsame ⊢
  generalize ho' : exec i s' = o' at hsame ⊢
  cases hsame with
  | next hpc hmem hstatus hdest =>
    exact ⟨hpc, hmem, hstatus, hdest, fun r hne => ⟨exec_frame_registers ho hne, exec_frame_registers ho' hne⟩⟩
  | fault f => rfl

end Sys2Proof.Machine
end

section
/-! PROOFS. The words of the encoding (spec 30): the bits of the fields and of the immediates, the range of each immediate, and
what a word that decodes can yield. Settles O15 and O16. -/

namespace Sys2Proof

/-! The fields and the immediates, bit by bit. A bit of a concatenation is a bit of the part its index reaches, and the bits
above a sign-extended pattern are its highest bit. -/

section
variable (w : Word) {k : Nat}

/-- A field at offset `lo` holds the word's bits from `lo` on (spec 30 R81). -/
theorem getLsbD_field (lo : Nat) {n : Nat} (hk : k < n) : (w.extractLsb' lo n).getLsbD k = w.getLsbD (lo + k) := by
  rw [BitVec.getLsbD_extractLsb', decide_eq_true hk, Bool.true_and]

theorem getLsbD_immI (hk : k < 32) :
    (immI w).getLsbD k = if k < 12 then w.getLsbD (20 + k) else w.getLsbD 31 := by
  simp only [immI, BitVec.getLsbD_signExtend, BitVec.msb_eq_getLsbD_last, BitVec.getLsbD_extractLsb']
  grind

theorem getLsbD_immB (hk : k < 32) :
    (immB w).getLsbD k = if k = 0 then false else if k < 5 then w.getLsbD (7 + k) else if k < 11 then w.getLsbD (20 + k)
      else if k = 11 then w.getLsbD 7 else w.getLsbD 31 := by
  simp only [immB, BitVec.getLsbD_signExtend, BitVec.msb_eq_getLsbD_last, BitVec.getLsbD_append, BitVec.getLsbD_extractLsb']
  grind

theorem getLsbD_immU (hk : k < 32) : (immU w).getLsbD k = if k < 12 then false else w.getLsbD k := by
  simp only [immU, BitVec.getLsbD_append, BitVec.getLsbD_extractLsb']
  grind

theorem getLsbD_immJ (hk : k < 32) :
    (immJ w).getLsbD k = if k = 0 then false else if k < 11 then w.getLsbD (20 + k) else if k = 11 then w.getLsbD 20
      else if k < 20 then w.getLsbD k else w.getLsbD 31 := by
  simp only [immJ, BitVec.getLsbD_signExtend, BitVec.msb_eq_getLsbD_last, BitVec.getLsbD_append, BitVec.getLsbD_extractLsb']
  grind

end

/-! The ranges (spec 30 R83 to R87). Sign extension keeps the signed value, and a zero appended below doubles it: that gives the
even immediates their bounds and their parity. -/

theorem fitsImm12_signExtend (x : BitVec 12) : fitsImm12 (x.signExtend 32) = true := by
  have hlo : -2048 ≤ x.toInt := x.le_toInt
  have hhi : x.toInt < 2048 := x.toInt_lt
  have hv : (x.signExtend 32).toInt = x.toInt := BitVec.toInt_signExtend_of_le (by decide)
  simp only [fitsImm12, hv, Bool.and_eq_true, decide_eq_true_eq]
  omega

theorem toInt_signExtend_append_zero {n : Nat} (x : BitVec n) (hn : n + 1 ≤ 32) :
    ((x ++ 0#1).signExtend 32).toInt = 2 * x.toInt := by
  rw [BitVec.toInt_signExtend_of_le hn, BitVec.toInt_append_zero, pow_one]

theorem fitsImmB_signExtend (x : BitVec 12) : fitsImmB ((x ++ 0#1).signExtend 32) = true := by
  have hlo : -2048 ≤ x.toInt := x.le_toInt
  have hhi : x.toInt < 2048 := x.toInt_lt
  simp only [fitsImmB, toInt_signExtend_append_zero x (by decide), Bool.and_eq_true, decide_eq_true_eq]
  omega

theorem fitsImmJ_signExtend (x : BitVec 20) : fitsImmJ ((x ++ 0#1).signExtend 32) = true := by
  have hlo : -524288 ≤ x.toInt := x.le_toInt
  have hhi : x.toInt < 524288 := x.toInt_lt
  simp only [fitsImmJ, toInt_signExtend_append_zero x (by decide), Bool.and_eq_true, decide_eq_true_eq]
  omega

theorem fitsImmU_append (x : BitVec 20) : fitsImmU (x ++ 0#12) = true := by
  have hv : (x ++ 0#12).toNat = x.toNat * 4096 := by
    rw [BitVec.toNat_append]
    simp [Nat.shiftLeft_eq]
  simp only [fitsImmU, decide_eq_true_eq]
  omega

/-! What a word that decodes yields, said once. -/

/-- `Decodes m w i`: the selector fields of `w` are those of the mnemonic of `i` (spec 30 R89 to R96), and the operands of `i` are
the fields of `w` and its immediate of that format. -/
inductive Decodes (m : Bool) (w : Word) : Instr → Prop where
  | add (ho : opcodeOf w = 0b0110011#7) (h7 : funct7Of w = 0b0000000#7) (h3 : funct3Of w = 0b000#3) :
      Decodes m w (.add (rdOf w) (rs1Of w) (rs2Of w))
  | sub (ho : opcodeOf w = 0b0110011#7) (h7 : funct7Of w = 0b0100000#7) (h3 : funct3Of w = 0b000#3) :
      Decodes m w (.sub (rdOf w) (rs1Of w) (rs2Of w))
  | mul (ho : opcodeOf w = 0b0110011#7) (h7 : funct7Of w = 0b0000001#7) (h3 : funct3Of w = 0b000#3) (hm : m = true) :
      Decodes m w (.mul (rdOf w) (rs1Of w) (rs2Of w))
  | div (ho : opcodeOf w = 0b0110011#7) (h7 : funct7Of w = 0b0000001#7) (h3 : funct3Of w = 0b100#3) (hm : m = true) :
      Decodes m w (.div (rdOf w) (rs1Of w) (rs2Of w))
  | lb (ho : opcodeOf w = 0b0000011#7) (h3 : funct3Of w = 0b000#3) : Decodes m w (.lb (rdOf w) (rs1Of w) (immI w))
  | lh (ho : opcodeOf w = 0b0000011#7) (h3 : funct3Of w = 0b001#3) : Decodes m w (.lh (rdOf w) (rs1Of w) (immI w))
  | lw (ho : opcodeOf w = 0b0000011#7) (h3 : funct3Of w = 0b010#3) : Decodes m w (.lw (rdOf w) (rs1Of w) (immI w))
  | addi (ho : opcodeOf w = 0b0010011#7) (h3 : funct3Of w = 0b000#3) : Decodes m w (.addi (rdOf w) (rs1Of w) (immI w))
  | ori (ho : opcodeOf w = 0b0010011#7) (h3 : funct3Of w = 0b110#3) : Decodes m w (.ori (rdOf w) (rs1Of w) (immI w))
  | andi (ho : opcodeOf w = 0b0010011#7) (h3 : funct3Of w = 0b111#3) : Decodes m w (.andi (rdOf w) (rs1Of w) (immI w))
  | sb (ho : opcodeOf w = 0b0100011#7) (h3 : funct3Of w = 0b000#3) : Decodes m w (.sb (rs2Of w) (rs1Of w) (immS w))
  | sh (ho : opcodeOf w = 0b0100011#7) (h3 : funct3Of w = 0b001#3) : Decodes m w (.sh (rs2Of w) (rs1Of w) (immS w))
  | sw (ho : opcodeOf w = 0b0100011#7) (h3 : funct3Of w = 0b010#3) : Decodes m w (.sw (rs2Of w) (rs1Of w) (immS w))
  | lui (ho : opcodeOf w = 0b0110111#7) : Decodes m w (.lui (rdOf w) (immU w))
  | auipc (ho : opcodeOf w = 0b0010111#7) : Decodes m w (.auipc (rdOf w) (immU w))
  | jal (ho : opcodeOf w = 0b1101111#7) : Decodes m w (.jal (rdOf w) (immJ w))
  | jalr (ho : opcodeOf w = 0b1100111#7) (h3 : funct3Of w = 0b000#3) : Decodes m w (.jalr (rdOf w) (rs1Of w) (immI w))
  | beq (ho : opcodeOf w = 0b1100011#7) (h3 : funct3Of w = 0b000#3) : Decodes m w (.beq (rs1Of w) (rs2Of w) (immB w))
  | bne (ho : opcodeOf w = 0b1100011#7) (h3 : funct3Of w = 0b001#3) : Decodes m w (.bne (rs1Of w) (rs2Of w) (immB w))
  | blt (ho : opcodeOf w = 0b1100011#7) (h3 : funct3Of w = 0b100#3) : Decodes m w (.blt (rs1Of w) (rs2Of w) (immB w))
  | bge (ho : opcodeOf w = 0b1100011#7) (h3 : funct3Of w = 0b101#3) : Decodes m w (.bge (rs1Of w) (rs2Of w) (immB w))
  | bltu (ho : opcodeOf w = 0b1100011#7) (h3 : funct3Of w = 0b110#3) : Decodes m w (.bltu (rs1Of w) (rs2Of w) (immB w))
  | bgeu (ho : opcodeOf w = 0b1100011#7) (h3 : funct3Of w = 0b111#3) : Decodes m w (.bgeu (rs1Of w) (rs2Of w) (immB w))

section
variable {m : Bool} {w : Word} {i : Instr}

theorem decodes_of_decodeOp (ho : opcodeOf w = 0b0110011#7) (h : decodeOp m w = .ok i) : Decodes m w i := by
  simp only [decodeOp, funct3Fault, funct7Fault] at h
  split_ifs at h with h7 h3 h7 h3 h7 h3 h3 <;> cases h
  · exact .add ho h7 h3
  · exact .sub ho h7 h3
  · exact .mul ho h7.1 h3 h7.2
  · exact .div ho h7.1 h3 h7.2

theorem decodes_of_decodeLoad (ho : opcodeOf w = 0b0000011#7) (h : decodeLoad w = .ok i) : Decodes m w i := by
  simp only [decodeLoad, funct3Fault] at h
  split_ifs at h with h3 h3 h3 <;> cases h
  · exact .lb ho h3
  · exact .lh ho h3
  · exact .lw ho h3

theorem decodes_of_decodeOpImm (ho : opcodeOf w = 0b0010011#7) (h : decodeOpImm w = .ok i) : Decodes m w i := by
  simp only [decodeOpImm, funct3Fault] at h
  split_ifs at h with h3 h3 h3 <;> cases h
  · exact .addi ho h3
  · exact .ori ho h3
  · exact .andi ho h3

theorem decodes_of_decodeStore (ho : opcodeOf w = 0b0100011#7) (h : decodeStore w = .ok i) : Decodes m w i := by
  simp only [decodeStore, funct3Fault] at h
  split_ifs at h with h3 h3 h3 <;> cases h
  · exact .sb ho h3
  · exact .sh ho h3
  · exact .sw ho h3

theorem decodes_of_decodeJalr (ho : opcodeOf w = 0b1100111#7) (h : decodeJalr w = .ok i) : Decodes m w i := by
  simp only [decodeJalr, funct3Fault] at h
  split_ifs at h with h3
  cases h
  exact .jalr ho h3

theorem decodes_of_decodeBranch (ho : opcodeOf w = 0b1100011#7) (h : decodeBranch w = .ok i) : Decodes m w i := by
  simp only [decodeBranch, funct3Fault] at h
  split_ifs at h with h3 h3 h3 h3 h3 h3 <;> cases h
  · exact .beq ho h3
  · exact .bne ho h3
  · exact .blt ho h3
  · exact .bge ho h3
  · exact .bltu ho h3
  · exact .bgeu ho h3

/-- The decoder tests the opcode, then its class decides. -/
theorem decodes_of_decode (h : decode m w = .ok i) : Decodes m w i := by
  unfold decode at h
  split_ifs at h with hop hload hopImm hstore hlui hauipc hjal hjalr hbranch
  · exact decodes_of_decodeOp hop h
  · exact decodes_of_decodeLoad hload h
  · exact decodes_of_decodeOpImm hopImm h
  · exact decodes_of_decodeStore hstore h
  · cases h
    exact .lui hlui
  · cases h
    exact .auipc hauipc
  · cases h
    exact .jal hjal
  · exact decodes_of_decodeJalr hjalr h
  · exact decodes_of_decodeBranch hbranch h
  · cases h

end

/-- Settles O15: each field is a run of the word's bits. -/
theorem fieldsAreTheStatedBits : Obligations.FieldsAreTheStatedBits := by
  intro w k
  refine ⟨fun hk => ?_, getLsbD_field w 7, getLsbD_field w 12, getLsbD_field w 15, getLsbD_field w 20, getLsbD_field w 25⟩
  rw [opcodeOf, getLsbD_field w 0 hk, Nat.zero_add]

/-- Settles O16: the bits of each immediate, its range, and `Decodes` for the instructions that carry it. -/
theorem immediatesAreTheStatedBits : Obligations.ImmediatesAreTheStatedBits := by
  refine ⟨fun w k hk => ?_, fun w => ?_, fun m w i h => ?_⟩
  · exact ⟨getLsbD_immI w hk, getLsbD_immB w hk, getLsbD_immU w hk, getLsbD_immJ w hk⟩
  · exact ⟨fitsImm12_signExtend _, fitsImmB_signExtend _, fitsImmU_append _, fitsImmJ_signExtend _⟩
  · cases decodes_of_decode h with
    | add | sub | mul | div | sb | sh | sw => exact trivial
    | lb | lh | lw | addi | ori | andi | jalr => rfl
    | beq | bne | blt | bge | bltu | bgeu => rfl
    | lui | auipc | jal => rfl

end Sys2Proof
end

section
/-! PROOFS. The host's peeks and pokes (spec 50 R202 to R205): what the memory accesses answer where they are accepted, and the
effect of one poke as an instruction's write that leaves `pc` where it is. Settles O37. -/

namespace Sys2Proof.Machine

theorem hostReadMemory_accepted {s : State} {a : Nat} (hs : s.status ≠ .running) (ha : a < s.config.memWords) :
    hostReadMemory a s = .ok (cellAt s.mem a) := by
  simp [hostReadMemory, hostLocked, hs, ha]

theorem hostWriteMemory_accepted {s : State} {a : Nat} (v : Word) (hs : s.status ≠ .running) (ha : a < s.config.memWords) :
    hostWriteMemory a v s = .next (s.setMem (putCell s.mem a v)) := by
  simp [hostWriteMemory, hostLocked, hs, ha]

theorem setPc_eq_self {s : State} {p : Word} (h : s.pc = p) : s.setPc p = s := by
  subst h
  rfl

/-- A register write alone, `pc` kept. -/
theorem writeReg_only (s : State) (rd : RegIdx) (v : Word) : OnlyRegAndPc s (s.writeReg rd v) rd v s.pc := by
  have h := writeReg_setPc_only s rd v s.pc
  rwa [setPc_eq_self (writeReg_pc s rd v)] at h

/-- A cell write alone, `pc` kept. -/
theorem putCell_only (s : State) (a : Nat) (v : Word) : OnlyCellAndPc s (s.setMem (putCell s.mem a v)) a v s.pc := by
  have h := putCell_setPc_only s a v s.pc
  rwa [setPc_eq_self (setMem_pc s _)] at h

/-- Settles O37: each access is accepted, and a poke is one register or cell write and nothing else. -/
theorem peeksAndPokesActOnOnePlace : Obligations.PeeksAndPokesActOnOnePlace := by
  intro s hs
  refine ⟨fun n hn => hostReadRegister_accepted hs hn, fun n v hn => ?_, fun a ha => hostReadMemory_accepted hs ha,
    fun a v ha => ?_⟩
  · exact ⟨_, hostWriteRegister_accepted v hs hn, rfl, writeReg_only s _ v⟩
  · exact ⟨_, hostWriteMemory_accepted v hs ha, putCell_only s a v⟩

end Sys2Proof.Machine
end

section
/-! PROOFS. Where execution begins (spec 70 R251): what each accepted host operation answers, that none of them writes `pc`, and
the first fetch of a run. Settles O8. -/

namespace Sys2Proof.Machine

/-! An accepted host operation: the guards it passed and the state it answers (spec 50 R201 to R209). -/

theorem hostLoad_next {s t : State} {ws : List Word} (h : hostLoad ws s = .next t) :
    s.status = .idle ∧ s.loaded = false ∧ ws.length ≤ s.config.memWords ∧
      t = ((s.setMem (loadWords s.mem 0 ws)).setCount (BitVec.ofNat 32 ws.length)).setLoaded true := by
  unfold hostLoad at h
  split at h
  case h_4 hidle =>
    split_ifs at h with hloaded hlong
    cases h
    exact ⟨hidle, by simpa using hloaded, by omega, rfl⟩
  all_goals cases h

theorem hostWriteRegister_next {s t : State} {n : Nat} {v : Word} (h : hostWriteRegister n v s = .next t) :
    s.status ≠ .running ∧ n < 32 ∧ t = s.writeReg (BitVec.ofNat 5 n) v := by
  unfold hostWriteRegister at h
  split_ifs at h with hlocked hn
  cases h
  exact ⟨by simpa [hostLocked] using hlocked, hn, rfl⟩

theorem hostWriteMemory_next {s t : State} {a : Nat} {v : Word} (h : hostWriteMemory a v s = .next t) :
    s.status ≠ .running ∧ a < s.config.memWords ∧ t = s.setMem (putCell s.mem a v) := by
  unfold hostWriteMemory at h
  split_ifs at h with hlocked ha
  cases h
  exact ⟨by simpa [hostLocked] using hlocked, ha, rfl⟩

theorem hostStart_next {s t : State} (h : hostStart s = .next t) : s.status = .idle ∧ t = s.setStatus .running := by
  unfold hostStart at h
  split at h
  case h_1 hidle =>
    cases h
    exact ⟨hidle, rfl⟩
  all_goals cases h

/-! The first fetch. -/

@[simp] theorem fetchAllowed_setStatus (s : State) (x : Status) : fetchAllowed (s.setStatus x) = fetchAllowed s := rfl

theorem pc_eq_zero_of_idle {s : State} (hinv : s.Inv) (hidle : s.status = .idle) : s.pc = 0#32 := by
  simpa [StatusFits, hidle] using hinv.statusFits

theorem fetch_of_inArray {s : State} (h : InArray s s.pc) : s.fetch = .ok (cellOf s s.pc) := by
  rcases fetch_cases s with ⟨a, hcell, he⟩ | ⟨hcell, _⟩
  · obtain ⟨_, rfl⟩ := (cellIndex_eq_some s _ _).1 hcell
    exact he
  · exact absurd h ((cellIndex_eq_none s _).1 hcell)

/-- A bound of at least 1 does not exceed `MEM_WORDS`, so cell 0 is in the array. -/
theorem fetch_at_zero {s : State} (hinv : s.Inv) (hpc : s.pc = 0#32) (hbound : 1 ≤ s.instructionCount.toInt) :
    fetchAllowed s = true ∧ s.fetch = .ok (cellAt s.mem 0) := by
  have hzero : s.pc.toInt = 0 := by simp [hpc]
  have hfits := hinv.boundFits
  refine ⟨decide_eq_true (by omega), ?_⟩
  rw [fetch_of_inArray ⟨by omega, by omega⟩, cellOf, hzero]
  rfl

/-- Settles O8: `pc` stands at 0 from reset to the start of the run, and a start leaves the fetch as it was. -/
theorem executionStartsAtCellZero : Obligations.ExecutionStartsAtCellZero := by
  refine ⟨fun _ => rfl, fun s t h => ?_, fun s t hinv hidle hbound h => ?_⟩
  · rcases h with ⟨ws, h⟩ | ⟨n, v, h⟩ | ⟨a, v, h⟩ | h
    · obtain ⟨_, _, _, rfl⟩ := hostLoad_next h
      simp
    · obtain ⟨_, _, rfl⟩ := hostWriteRegister_next h
      exact writeReg_pc s _ v
    · obtain ⟨_, _, rfl⟩ := hostWriteMemory_next h
      exact setMem_pc s _
    · obtain ⟨_, rfl⟩ := hostStart_next h
      exact setStatus_pc s _
  · obtain ⟨_, rfl⟩ := hostStart_next h
    rw [fetchAllowed_setStatus, fetch_setStatus]
    exact fetch_at_zero hinv (pc_eq_zero_of_idle hinv hidle) hbound

end Sys2Proof.Machine
end

section
/-! PROOFS. What one step of a running machine can lead to (spec 40 R121 to R131, spec 60 R221 to R224), said once: an inversion
of `step` by its four outcomes, the frames of an instruction and of a step, and that steps from a fixed point stay there. -/

namespace Sys2Proof.Machine

/-! Which step is taken. -/

theorem tookFault_eq (s : State) (f : HwFault) : tookFault s f = s.setStatus (.faulted f) := rfl

theorem step_of_aboutToExecute {s : State} {i : Instr} (h : AboutToExecute s i) : step s = exec i s := by
  obtain ⟨hrun, hbound, w, hfetch, hdecode⟩ := h
  simp [step, engineStep, runningStep, hrun, hbound, hfetch, hdecode]

theorem step_of_not_running {s : State} (h : s.status ≠ .running) : step s = .next s := by
  unfold step engineStep
  split
  · exact absurd ‹_› h
  · rfl
  · rfl
  · rfl

theorem step_of_bound_reached {s : State} (hrun : s.status = .running) (hbound : fetchAllowed s = false) :
    step s = .next (s.setStatus .halted) := by
  simp [step, engineStep, runningStep, hrun, hbound]

theorem step_of_decode_error {s : State} {w : Word} {d : DecodeFault} (hrun : s.status = .running)
    (hbound : fetchAllowed s = true) (hfetch : s.fetch = .ok w) (hdecode : decode s.config.hasMulDiv w = .error d) :
    step s = .next (tookFault s (.decode d)) := by
  simp [step, engineStep, runningStep, hrun, hbound, hfetch, hdecode, tookFault_eq]

theorem fetchAllowed_eq_true_iff (s : State) : fetchAllowed s = true ↔ s.pc.toInt < s.instructionCount.toInt := by
  simp [fetchAllowed, condLtSigned]

theorem fetchAllowed_eq_false_iff (s : State) : fetchAllowed s = false ↔ s.instructionCount.toInt ≤ s.pc.toInt := by
  simp [fetchAllowed, condLtSigned]

theorem present_of_aboutToExecute {s : State} {i : Instr} (h : AboutToExecute s i) :
    i.present s.config.hasMulDiv = true := by
  obtain ⟨_, _, _, _, hdecode⟩ := h
  exact present_of_decode hdecode

/-! MUL and DIV by the tests they make (spec 42 R145 to R147). -/

section
variable {s : State} (rd rs1 : RegIdx) {rs2 : RegIdx}

theorem execMul_present (rs2 : RegIdx) (hm : s.config.hasMulDiv = true) :
    execMul rd rs1 rs2 s = writeAndAdvance rd (s.readReg rs1 * s.readReg rs2) s := if_pos hm

theorem execMul_absent (rs2 : RegIdx) (hm : ¬ s.config.hasMulDiv = true) : execMul rd rs1 rs2 s = absentMulDiv s :=
  if_neg hm

theorem execDiv_nonzero (hm : s.config.hasMulDiv = true) (hz : s.readReg rs2 ≠ 0#32) :
    execDiv rd rs1 rs2 s = writeAndAdvance rd (sdiv (s.readReg rs1) (s.readReg rs2)) s :=
  (if_pos hm).trans (if_neg hz)

theorem execDiv_zero (hm : s.config.hasMulDiv = true) (hz : s.readReg rs2 = 0#32) :
    execDiv rd rs1 rs2 s = .next (tookFault s .arithmetic) :=
  (if_pos hm).trans (if_pos hz)

theorem execDiv_absent (rs2 : RegIdx) (hm : ¬ s.config.hasMulDiv = true) : execDiv rd rs1 rs2 s = absentMulDiv s :=
  if_neg hm

end

/-! The frames: what an instruction and a step leave alone. -/

/-- No instruction writes the bound, the parameters or the record of the load. -/
theorem exec_frame {i : Instr} {s t : State} (h : exec i s = .next t) :
    t.instructionCount = s.instructionCount ∧ t.config = s.config ∧ t.loaded = s.loaded := by
  have he := exec_effect i s
  rw [h] at he
  cases he with
  | register | branch | store | divByZero | absent => simp

/-- An instruction that is present and completes in a running machine leaves it running, unless it is DIV by zero. -/
theorem exec_status {i : Instr} {s t : State} (hpresent : i.present s.config.hasMulDiv = true) (h : exec i s = .next t) :
    t.status = s.status ∨
      (∃ rd rs1 rs2, i = .div rd rs1 rs2 ∧ s.readReg rs2 = 0#32) ∧ t = tookFault s .arithmetic := by
  have he := exec_effect i s
  rw [h] at he
  cases he with
  | register | branch | store => exact .inl (by simp)
  | divByZero rd rs1 rs2 hi _ hz => exact .inr ⟨⟨rd, rs1, rs2, hi, hz⟩, rfl⟩
  | absent habsent => simp [hpresent] at habsent

/-- The four ways a step of a running machine leads to a next state. -/
inductive RunningNext (s : State) : State → Prop where
  /-- An instruction completes and the run goes on. -/
  | goesOn {i : Instr} {t : State} (hi : AboutToExecute s i) (ht : exec i s = .next t) (hrun : t.status = .running) :
      RunningNext s t
  /-- The bound is reached (spec 40 R122). -/
  | halts (hbound : fetchAllowed s = false) : RunningNext s (s.setStatus .halted)
  /-- The fetched word does not decode (spec 60 R221). -/
  | decodeFault {w : Word} {d : DecodeFault} (hbound : fetchAllowed s = true) (hfetch : s.fetch = .ok w)
      (hdecode : decode s.config.hasMulDiv w = .error d) : RunningNext s (tookFault s (.decode d))
  /-- DIV divides by zero (spec 60 R222). -/
  | divByZero {rd rs1 rs2 : RegIdx} (hi : AboutToExecute s (.div rd rs1 rs2)) (hz : s.readReg rs2 = 0#32) :
      RunningNext s (tookFault s .arithmetic)

theorem runningNext_of_step {s t : State} (hrun : s.status = .running) (h : step s = .next t) : RunningNext s t := by
  have he := step_effect s
  generalize ho : step s = o at he
  cases he with
  | still hstill => exact absurd hrun hstill
  | halts _ hbound =>
    cases ho.symm.trans h
    exact .halts hbound
  | fetchOutside => cases ho.symm.trans h
  | decodeFault w d _ hbound hfetch hdecode =>
    cases ho.symm.trans h
    exact .decodeFault hbound hfetch hdecode
  | executes w i _ hbound hfetch hdecode =>
    have hi : AboutToExecute s i := ⟨hrun, hbound, w, hfetch, hdecode⟩
    have ht : exec i s = .next t := ho.symm.trans h
    rcases exec_status (present_of_decode hdecode) ht with hstatus | ⟨⟨rd, rs1, rs2, rfl, hz⟩, rfl⟩
    · exact .goesOn hi ht (hstatus.trans hrun)
    · exact .divByZero hi hz

theorem step_frame {s t : State} (h : step s = .next t) :
    t.instructionCount = s.instructionCount ∧ t.config = s.config ∧ t.loaded = s.loaded := by
  by_cases hrun : s.status = .running
  · cases runningNext_of_step hrun h with
    | goesOn hi ht _ => exact exec_frame ht
    | halts | decodeFault | divByZero => exact ⟨rfl, rfl, rfl⟩
  · cases (step_of_not_running hrun).symm.trans h
    exact ⟨rfl, rfl, rfl⟩

/-- A run once started is never idle again. -/
theorem step_not_idle {s t : State} (hs : s.status ≠ .idle) (h : step s = .next t) : t.status ≠ .idle := by
  by_cases hrun : s.status = .running
  · cases runningNext_of_step hrun h with
    | goesOn _ _ hgoes => simp [hgoes]
    | halts | decodeFault | divByZero => simp [tookFault_eq]
  · cases (step_of_not_running hrun).symm.trans h
    exact hs

/-! Runs. -/

/-- A state that a step leaves as it is stays so for ever. -/
theorem run_of_fixed {s : State} (h : step s = .next s) (k : Nat) : Host.Core.run Sys2Proof.core k s = .next s := by
  induction k with
  | zero => rfl
  | succ k ih =>
    have hstep : Sys2Proof.core.step s = .next s := h
    simp only [Host.Core.run, hstep]
    exact ih

theorem runSteps_succ {s t : State} (hrun : s.status = .running) (h : step s = .next t) (fuel : Nat) :
    runSteps (fuel + 1) s = runSteps fuel t := by
  simp [runSteps, hrun, h]

/-- What every step of a running machine keeps, `execute()` keeps. -/
theorem runSteps_keeps {P : State → Prop} (hstep : ∀ s t, s.status = .running → P s → step s = .next t → P t)
    (fuel : Nat) {s t : State} (hs : P s) (h : runSteps fuel s = .next t) : P t := by
  induction fuel generalizing s with
  | zero =>
    cases h
    exact hs
  | succ fuel ih =>
    by_cases hrun : s.status = .running
    · cases hu : step s with
      | next u => exact ih (hstep s u hrun hs hu) ((runSteps_succ hrun hu fuel).symm.trans h)
      | fault f => simp [runSteps, hrun, hu] at h
      | refused r => simp [runSteps, hrun, hu] at h
    · rw [runSteps, if_neg hrun] at h
      cases h
      exact hs

theorem runSteps_of_not_running {s : State} (h : s.status ≠ .running) (fuel : Nat) : runSteps fuel s = .next s := by
  cases fuel with
  | zero => rfl
  | succ fuel => rw [runSteps, if_neg h]

/-- `execute()` starts an idle machine and then steps it. -/
theorem hostExecute_next {fuel : Nat} {s t : State} (h : hostExecute fuel s = .next t) :
    s.status = .idle ∧ runSteps fuel (s.setStatus .running) = .next t := by
  unfold hostExecute at h
  split at h
  case h_1 u hu =>
    obtain ⟨hidle, rfl⟩ := hostStart_next hu
    exact ⟨hidle, h⟩
  all_goals cases h

theorem hostExecute_of_idle {s : State} (h : s.status = .idle) (fuel : Nat) :
    hostExecute fuel s = runSteps fuel (s.setStatus .running) := by
  simp [hostExecute, hostStart, h]

end Sys2Proof.Machine
end

section
/-! PROOFS. The invariant (spec 10 sections 3 and 5): the part of it that speaks of the data is kept by each update of the state,
the part that speaks of `status` is read off the four outcomes of a step. Settles O4, O5, O6, O7 and O40. -/

namespace Sys2Proof.Machine

/-- The part of the invariant that does not speak of `status` or `pc`. -/
structure DataInv (s : State) : Prop where
  legal : s.config.Legal
  canonical : Memory.wf s.mem
  inside : ∀ c ∈ s.mem, c.1 < s.config.memWords
  boundNonneg : 0 ≤ s.instructionCount.toInt
  boundFits : s.instructionCount.toInt ≤ (s.config.memWords : Int)
  unloadedBound : s.loaded = false → s.instructionCount = 0#32
  slotZero : s.regs[0] = 0#32

theorem inv_iff (s : State) : s.Inv ↔ DataInv s ∧ StatusFits s :=
  ⟨fun h => ⟨⟨h.legal, h.canonical, h.inside, h.boundNonneg, h.boundFits, h.unloadedBound, h.slotZero⟩, h.statusFits⟩,
    fun ⟨h, hstatus⟩ =>
      ⟨h.legal, h.canonical, h.inside, h.boundNonneg, h.boundFits, h.unloadedBound, h.slotZero, hstatus⟩⟩

/-! Each update keeps the data's part. -/

section
variable {s : State} (h : DataInv s)
include h

theorem DataInv.setPc (p : Word) : DataInv (s.setPc p) :=
  ⟨h.legal, h.canonical, h.inside, h.boundNonneg, h.boundFits, h.unloadedBound, h.slotZero⟩

theorem DataInv.setStatus (x : Status) : DataInv (s.setStatus x) :=
  ⟨h.legal, h.canonical, h.inside, h.boundNonneg, h.boundFits, h.unloadedBound, h.slotZero⟩

theorem DataInv.writeReg (i : RegIdx) (v : Word) : DataInv (s.writeReg i v) where
  legal := by simpa using h.legal
  canonical := by simpa using h.canonical
  inside := by simpa using h.inside
  boundNonneg := by simpa using h.boundNonneg
  boundFits := by simpa using h.boundFits
  unloadedBound := by simpa using h.unloadedBound
  slotZero := (writeReg_slot_zero s i v).trans h.slotZero

theorem DataInv.putCell {a : Nat} (ha : a < s.config.memWords) (v : Word) : DataInv (s.setMem (putCell s.mem a v)) where
  legal := h.legal
  canonical := putCell_wf _ _ _ h.canonical
  inside := putCell_inside _ _ _ _ h.inside ha
  boundNonneg := h.boundNonneg
  boundFits := h.boundFits
  unloadedBound := h.unloadedBound
  slotZero := h.slotZero

/-- The load: the program ends inside the array, whose size is a signed 32-bit number, so its length is a legal bound. -/
theorem DataInv.load {ws : List Word} (hlength : ws.length ≤ s.config.memWords) :
    DataInv (((s.setMem (loadWords s.mem 0 ws)).setCount (BitVec.ofNat 32 ws.length)).setLoaded true) := by
  have hlegal : s.config.memWords ≤ 2147483647 := h.legal
  have hbound : (BitVec.ofNat 32 ws.length).toInt = ws.length := by
    rw [BitVec.toInt_ofNat']
    exact Int.bmod_eq_of_le (by omega) (by omega)
  obtain ⟨hcanonical, hinside⟩ := loadWords_wf ws s.mem 0 s.config.memWords h.canonical h.inside (by omega)
  refine ⟨h.legal, hcanonical, hinside, ?_, ?_, by simp, h.slotZero⟩
  · simp only [setLoaded_count, setCount_count, hbound]
    omega
  · simp only [setLoaded_count, setCount_count, setLoaded_config, setCount_config, setMem_config, hbound]
    omega

/-- No instruction breaks the data's part. -/
theorem DataInv.exec {i : Instr} {t : State} (ht : Machine.exec i s = .next t) : DataInv t := by
  have he := exec_effect i s
  rw [ht] at he
  cases he with
  | register rd v p => exact (h.writeReg rd v).setPc p
  | branch p => exact h.setPc p
  | store addr a v _ _ _ hcell => exact (h.putCell (cellIndex_lt hcell) v).setPc _
  | divByZero | absent => exact h.setStatus _

end

theorem dataInv_resetWith {c : Config} (hc : c.Legal) : DataInv (State.resetWith c) where
  legal := hc
  canonical := resetWith_mem_wf c
  inside := by simp [State.resetWith]
  boundNonneg := by simp [State.resetWith]
  boundFits := by simp [State.resetWith]
  unloadedBound _ := rfl
  slotZero := by simp [State.resetWith]

/-! What `status` says. -/

theorem statusFits_of_idle {s : State} (hstatus : s.status = .idle) (hpc : s.pc = 0#32) : StatusFits s := by
  simpa [StatusFits, hstatus] using hpc

theorem statusFits_of_running {s : State} (hstatus : s.status = .running) : StatusFits s := by
  simp [StatusFits, hstatus]

theorem statusFits_halted {s : State} (hbound : fetchAllowed s = false) : StatusFits (s.setStatus .halted) := hbound

theorem statusFits_decodeFault {s : State} {w : Word} {d : DecodeFault} (hbound : fetchAllowed s = true)
    (hfetch : s.fetch = .ok w) (hdecode : decode s.config.hasMulDiv w = .error d) :
    StatusFits (tookFault s (.decode d)) := ⟨hbound, w, hfetch, hdecode⟩

theorem statusFits_divByZero {s : State} {rd rs1 rs2 : RegIdx} (h : AboutToExecute s (.div rd rs1 rs2))
    (hz : s.readReg rs2 = 0#32) : StatusFits (tookFault s .arithmetic) := by
  have hoption : s.config.hasMulDiv = true := present_of_aboutToExecute h
  obtain ⟨_, hbound, w, hfetch, hdecode⟩ := h
  exact ⟨hbound, hoption, w, rd, rs1, rs2, hfetch, hdecode, hz⟩

/-- An idle machine keeps the invariant under every change of the data that leaves it idle at its `pc`. -/
theorem inv_of_idle {s t : State} (hinv : s.Inv) (hidle : s.status = .idle) (hdata : DataInv t)
    (hstatus : t.status = s.status) (hpc : t.pc = s.pc) : t.Inv ∧ t.status = .idle :=
  ⟨(inv_iff t).2 ⟨hdata, statusFits_of_idle (hstatus.trans hidle) (hpc.trans (pc_eq_zero_of_idle hinv hidle))⟩,
    hstatus.trans hidle⟩

theorem inv_start {s : State} (hinv : s.Inv) : (s.setStatus .running).Inv :=
  (inv_iff _).2 ⟨((inv_iff s).1 hinv).1.setStatus _, statusFits_of_running rfl⟩

theorem step_keeps_inv {s t : State} (hinv : s.Inv) (h : step s = .next t) : t.Inv := by
  obtain ⟨hdata, -⟩ := (inv_iff s).1 hinv
  by_cases hrun : s.status = .running
  · refine (inv_iff t).2 ?_
    cases runningNext_of_step hrun h with
    | goesOn _ ht hgoes => exact ⟨hdata.exec ht, statusFits_of_running hgoes⟩
    | halts hbound => exact ⟨hdata.setStatus _, statusFits_halted hbound⟩
    | decodeFault hbound hfetch hdecode => exact ⟨hdata.setStatus _, statusFits_decodeFault hbound hfetch hdecode⟩
    | divByZero hi hz => exact ⟨hdata.setStatus _, statusFits_divByZero hi hz⟩
  · cases (step_of_not_running hrun).symm.trans h
    exact hinv

/-- Settles O6: the data's part is kept update by update, and each of the four outcomes of a step has the status that fits it. -/
theorem stepKeepsTheInvariant : Obligations.StepKeepsTheInvariant := fun _ _ => step_keeps_inv

/-- Settles O7: what each accepted host operation answers keeps the data's part, and only the start changes `status`. -/
theorem hostBeforeARunKeepsTheInvariant : Obligations.HostBeforeARunKeepsTheInvariant := by
  intro s hinv hidle
  obtain ⟨hdata, -⟩ := (inv_iff s).1 hinv
  refine ⟨fun ws t h => ?_, fun n v t h => ?_, fun a v t h => ?_, fun t h => ?_⟩
  · obtain ⟨_, _, hlength, rfl⟩ := hostLoad_next h
    exact inv_of_idle hinv hidle (hdata.load hlength) rfl rfl
  · obtain ⟨_, _, rfl⟩ := hostWriteRegister_next h
    exact inv_of_idle hinv hidle (hdata.writeReg _ v) (writeReg_status s _ v) (writeReg_pc s _ v)
  · obtain ⟨_, ha, rfl⟩ := hostWriteMemory_next h
    exact inv_of_idle hinv hidle (hdata.putCell ha v) rfl rfl
  · obtain ⟨_, rfl⟩ := hostStart_next h
    exact ⟨inv_start hinv, rfl⟩

/-- What `execute()` keeps of the machine `s` it starts. -/
structure KeptByRun (s t : State) : Prop where
  inv : t.Inv
  notIdle : t.status ≠ .idle
  bound : t.instructionCount = s.instructionCount
  config : t.config = s.config

theorem KeptByRun.step {s t u : State} (h : KeptByRun s t) (hu : Machine.step t = .next u) : KeptByRun s u := by
  obtain ⟨hbound, hconfig, -⟩ := step_frame hu
  exact ⟨step_keeps_inv h.inv hu, step_not_idle h.notIdle hu, hbound.trans h.bound, hconfig.trans h.config⟩

/-- Settles O40, by induction on the fuel: the start and every step keep `KeptByRun`. -/
theorem executeKeepsTheInvariant : Obligations.ExecuteKeepsTheInvariant := by
  intro fuel s t hinv _ h
  obtain ⟨_, hrun⟩ := hostExecute_next h
  have hstart : KeptByRun s (s.setStatus .running) := ⟨inv_start hinv, by simp, rfl, rfl⟩
  obtain ⟨ht, hidle, hbound, hconfig⟩ := runSteps_keeps (fun _ _ _ hk => hk.step) fuel hstart hrun
  exact ⟨ht, hidle, hbound, hconfig⟩

/-- Settles O4: reset is written out field by field, and an empty list of cells reads as zero everywhere. -/
theorem resetLeavesTheListedValues : Obligations.ResetLeavesTheListedValues :=
  ⟨fun c => ⟨readReg_hostReset c, cellAt_nil, rfl, rfl, rfl, rfl, rfl⟩, rfl⟩

/-- Settles O5: the data's part at reset, and an idle machine at `pc` 0. -/
theorem resetSatisfiesTheInvariant : Obligations.ResetSatisfiesTheInvariant := by
  have hreset (c : Config) (hc : c.Legal) : (State.resetWith c).Inv :=
    (inv_iff _).2 ⟨dataInv_resetWith hc, statusFits_of_idle rfl rfl⟩
  exact ⟨hreset, hreset resetConfig (by decide)⟩

end Sys2Proof.Machine
end

section
/-! PROOFS. Encoding and decoding are inverse (spec 30 sections 1 to 3): a word with the selector fields of a mnemonic decodes, an
immediate its format can spell survives the format, and the fields of a word put back into its format are the word. From these the
agreement with the opcode table. Settles O17, O18, O19, O20, O24 and O25. -/

namespace Sys2Proof

/-- The converse of `decodes_of_decode`. -/
theorem decode_of_decodes {m : Bool} {w : Word} {i : Instr} (h : Decodes m w i) : decode m w = .ok i := by
  cases h with
  | add ho h7 h3 | sub ho h7 h3 => simp [decode, decodeOp, ho, h7, h3]
  | mul ho h7 h3 hm | div ho h7 h3 hm => simp [decode, decodeOp, ho, h7, h3, hm]
  | lb ho h3 | lh ho h3 | lw ho h3 => simp [decode, decodeLoad, ho, h3]
  | addi ho h3 | ori ho h3 | andi ho h3 => simp [decode, decodeOpImm, ho, h3]
  | sb ho h3 | sh ho h3 | sw ho h3 => simp [decode, decodeStore, ho, h3]
  | lui ho | auipc ho | jal ho => simp [decode, ho]
  | jalr ho h3 => simp [decode, decodeJalr, ho, h3]
  | beq ho h3 | bne ho h3 | blt ho h3 | bge ho h3 | bltu ho h3 | bgeu ho h3 => simp [decode, decodeBranch, ho, h3]

/-! An immediate in its format's range is recovered from the bits the format has. -/

/-- A word whose signed value fits in `n` bits is the sign extension of its low `n` bits. -/
theorem signExtend_setWidth_of_bmod {n : Nat} (hn : n ≤ 32) {v : Word} (h : v.toInt.bmod (2 ^ n) = v.toInt) :
    (v.setWidth n).signExtend 32 = v := by
  refine BitVec.eq_of_toInt_eq ?_
  calc ((v.setWidth n).signExtend 32).toInt
    _ = (v.toNat : Int).bmod (2 ^ n) := by rw [BitVec.toInt_signExtend_of_le hn, BitVec.toInt_setWidth]
    _ = v.toInt.bmod (2 ^ n) := by rw [BitVec.toInt_eq_toNat_bmod, Int.bmod_bmod_of_dvd (Nat.pow_dvd_pow 2 hn)]
    _ = v.toInt := h

/-- An even word has bit 0 clear. -/
theorem getLsbD_zero_of_even {v : Word} (h : v.toInt % 2 = 0) : v.getLsbD 0 = false := by
  have hv := BitVec.toInt_eq_toNat_cond v
  have hmod : v.toNat % 2 = 0 := by
    split at hv <;> omega
  simpa [BitVec.getLsbD, Nat.testBit_zero] using hmod

theorem signExtend_of_fitsImm12 {v : Word} (h : fitsImm12 v = true) : (v.setWidth 12).signExtend 32 = v := by
  simp only [fitsImm12, Bool.and_eq_true, decide_eq_true_eq] at h
  exact signExtend_setWidth_of_bmod (by decide) (Int.bmod_eq_of_le (by omega) (by omega))

theorem signExtend_of_fitsImmB {v : Word} (h : fitsImmB v = true) : (v.setWidth 13).signExtend 32 = v := by
  simp only [fitsImmB, Bool.and_eq_true, decide_eq_true_eq] at h
  exact signExtend_setWidth_of_bmod (by decide) (Int.bmod_eq_of_le (by omega) (by omega))

theorem signExtend_of_fitsImmJ {v : Word} (h : fitsImmJ v = true) : (v.setWidth 21).signExtend 32 = v := by
  simp only [fitsImmJ, Bool.and_eq_true, decide_eq_true_eq] at h
  exact signExtend_setWidth_of_bmod (by decide) (Int.bmod_eq_of_le (by omega) (by omega))

theorem getLsbD_zero_of_fitsImmB {v : Word} (h : fitsImmB v = true) : v.getLsbD 0 = false := by
  simp only [fitsImmB, Bool.and_eq_true, decide_eq_true_eq] at h
  exact getLsbD_zero_of_even h.2

theorem getLsbD_zero_of_fitsImmJ {v : Word} (h : fitsImmJ v = true) : v.getLsbD 0 = false := by
  simp only [fitsImmJ, Bool.and_eq_true, decide_eq_true_eq] at h
  exact getLsbD_zero_of_even h.2

theorem append_of_fitsImmU {v : Word} (h : fitsImmU v = true) : v.extractLsb' 12 20 ++ 0#12 = v := by
  simp only [fitsImmU, decide_eq_true_eq] at h
  refine BitVec.eq_of_toNat_eq ?_
  have hlt := v.isLt
  rw [BitVec.toNat_append, BitVec.extractLsb'_toNat, BitVec.toNat_ofNat, Nat.zero_mod, Nat.or_zero, Nat.shiftLeft_eq,
    Nat.shiftRight_eq_div_pow]
  omega

section
variable {v : Word}

theorem immI_formatI_of_fits (h : fitsImm12 v = true) (rs1 : RegIdx) (f3 : BitVec 3) (rd : RegIdx) (op : BitVec 7) :
    immI (formatI (v.setWidth 12) rs1 f3 rd op) = v := by
  rw [immI_formatI, signExtend_of_fitsImm12 h]

theorem immS_formatS_of_fits (h : fitsImm12 v = true) (rs2 rs1 : RegIdx) (f3 : BitVec 3) (op : BitVec 7) :
    immS (formatS (v.setWidth 12) rs2 rs1 f3 op) = v := by
  rw [immS_formatS, signExtend_of_fitsImm12 h]

theorem immB_formatB_of_fits (h : fitsImmB v = true) (rs2 rs1 : RegIdx) (f3 : BitVec 3) (op : BitVec 7) :
    immB (formatB (v.setWidth 13) rs2 rs1 f3 op) = v := by
  rw [immB_formatB _ _ _ _ _ (by simpa using getLsbD_zero_of_fitsImmB h), signExtend_of_fitsImmB h]

theorem immU_formatU_of_fits (h : fitsImmU v = true) (rd : RegIdx) (op : BitVec 7) :
    immU (formatU (v.extractLsb' 12 20) rd op) = v := by
  rw [immU_formatU, append_of_fitsImmU h]

theorem immJ_formatJ_of_fits (h : fitsImmJ v = true) (rd : RegIdx) (op : BitVec 7) :
    immJ (formatJ (v.setWidth 21) rd op) = v := by
  rw [immJ_formatJ _ _ _ (by simpa using getLsbD_zero_of_fitsImmJ h), signExtend_of_fitsImmJ h]

end

/-- The word of an instruction some word can spell decodes to it. -/
theorem decode_encode (m : Bool) (i : Instr) (hw : i.wellFormed = true) (hp : i.present m = true) :
    decode m (encode i) = .ok i := by
  cases i with
  | add | sub => simp [encode, decode, decodeOp]
  | mul | div =>
    have hm : m = true := hp
    simp [encode, decode, decodeOp, hm]
  | lb | lh | lw => simp [encode, decode, decodeLoad, immI_formatI_of_fits hw, -immI_formatI]
  | addi | ori | andi => simp [encode, decode, decodeOpImm, immI_formatI_of_fits hw, -immI_formatI]
  | sb | sh | sw => simp [encode, decode, decodeStore, immS_formatS_of_fits hw, -immS_formatS]
  | lui | auipc => simp [encode, decode, immU_formatU_of_fits hw, -immU_formatU]
  | jal => simp [encode, decode, immJ_formatJ_of_fits hw]
  | jalr => simp [encode, decode, decodeJalr, immI_formatI_of_fits hw, -immI_formatI]
  | beq | bne | blt | bge | bltu | bgeu => simp [encode, decode, decodeBranch, immB_formatB_of_fits hw]

/-! The fields of a word, put back into its format, are the word. -/

section
variable (w : Word)

theorem formatR_fields : formatR (funct7Of w) (rs2Of w) (rs1Of w) (funct3Of w) (rdOf w) (opcodeOf w) = w := by
  refine BitVec.eq_of_getLsbD_eq fun k hk => ?_
  simp only [formatR, funct7Of, rs2Of, rs1Of, funct3Of, rdOf, opcodeOf, BitVec.getLsbD_append, BitVec.getLsbD_extractLsb']
  grind

theorem formatI_fields : formatI ((immI w).setWidth 12) (rs1Of w) (funct3Of w) (rdOf w) (opcodeOf w) = w := by
  refine BitVec.eq_of_getLsbD_eq fun k hk => ?_
  simp only [formatI, rs1Of, funct3Of, rdOf, opcodeOf, BitVec.getLsbD_append, BitVec.getLsbD_extractLsb',
    BitVec.getLsbD_setWidth]
  grind [getLsbD_immI]

theorem formatU_fields : formatU ((immU w).extractLsb' 12 20) (rdOf w) (opcodeOf w) = w := by
  refine BitVec.eq_of_getLsbD_eq fun k hk => ?_
  simp only [formatU, rdOf, opcodeOf, BitVec.getLsbD_append, BitVec.getLsbD_extractLsb']
  grind [getLsbD_immU]

theorem getLsbD_immS {k : Nat} (hk : k < 32) : (immS w).getLsbD k =
    if k < 5 then w.getLsbD (7 + k) else if k < 12 then w.getLsbD (20 + k) else w.getLsbD 31 := by
  simp only [immS, BitVec.getLsbD_signExtend, BitVec.msb_eq_getLsbD_last, BitVec.getLsbD_append, BitVec.getLsbD_extractLsb']
  grind

theorem formatS_fields : formatS ((immS w).setWidth 12) (rs2Of w) (rs1Of w) (funct3Of w) (opcodeOf w) = w := by
  refine BitVec.eq_of_getLsbD_eq fun k hk => ?_
  simp only [formatS, rs2Of, rs1Of, funct3Of, opcodeOf, BitVec.getLsbD_append, BitVec.getLsbD_extractLsb',
    BitVec.getLsbD_setWidth]
  grind [getLsbD_immS]

theorem formatB_fields : formatB ((immB w).setWidth 13) (rs2Of w) (rs1Of w) (funct3Of w) (opcodeOf w) = w := by
  refine BitVec.eq_of_getLsbD_eq fun k hk => ?_
  simp only [formatB, rs2Of, rs1Of, funct3Of, opcodeOf, BitVec.getLsbD_append, BitVec.getLsbD_extractLsb',
    BitVec.getLsbD_setWidth]
  grind [getLsbD_immB]

theorem formatJ_fields : formatJ ((immJ w).setWidth 21) (rdOf w) (opcodeOf w) = w := by
  refine BitVec.eq_of_getLsbD_eq fun k hk => ?_
  simp only [formatJ, rdOf, opcodeOf, BitVec.getLsbD_append, BitVec.getLsbD_extractLsb', BitVec.getLsbD_setWidth]
  grind [getLsbD_immJ]

end

section
variable {m : Bool} {w : Word} {i : Instr}

/-- A word that decodes has the fields of its instruction, and they make up the whole word. -/
theorem encode_of_decodes (h : Decodes m w i) : encode i = w := by
  cases h with
  | add ho h7 h3 | sub ho h7 h3 | mul ho h7 h3 | div ho h7 h3 => simpa [encode, ho, h7, h3] using formatR_fields w
  | lb ho h3 | lh ho h3 | lw ho h3 | addi ho h3 | ori ho h3 | andi ho h3 | jalr ho h3 =>
    simpa [encode, ho, h3] using formatI_fields w
  | sb ho h3 | sh ho h3 | sw ho h3 => simpa [encode, ho, h3] using formatS_fields w
  | lui ho | auipc ho => simpa [encode, ho] using formatU_fields w
  | jal ho => simpa [encode, ho] using formatJ_fields w
  | beq ho h3 | bne ho h3 | blt ho h3 | bge ho h3 | bltu ho h3 | bgeu ho h3 =>
    simpa [encode, ho, h3] using formatB_fields w

/-- The immediate of a word that decodes lies in its format's range. -/
theorem wellFormed_of_decodes (h : Decodes m w i) : i.wellFormed = true := by
  cases h with
  | add | sub | mul | div => rfl
  | lb | lh | lw | addi | ori | andi | jalr | sb | sh | sw => exact fitsImm12_signExtend _
  | lui | auipc => exact fitsImmU_append _
  | jal => exact fitsImmJ_signExtend _
  | beq | bne | blt | bge | bltu | bgeu => exact fitsImmB_signExtend _

end

/-! The opcode table. -/

theorem encode_matches_row (i : Instr) : encode i &&& (rowOf i).mask = (rowOf i).pattern := by
  cases i with
  | add => exact Laws.EncodeMatchesTable.add ..
  | sub => exact Laws.EncodeMatchesTable.sub ..
  | mul => exact Laws.EncodeMatchesTable.mul ..
  | div => exact Laws.EncodeMatchesTable.div ..
  | lb => exact Laws.EncodeMatchesTable.lb ..
  | lh => exact Laws.EncodeMatchesTable.lh ..
  | lw => exact Laws.EncodeMatchesTable.lw ..
  | addi => exact Laws.EncodeMatchesTable.addi ..
  | ori => exact Laws.EncodeMatchesTable.ori ..
  | andi => exact Laws.EncodeMatchesTable.andi ..
  | sb => exact Laws.EncodeMatchesTable.sb ..
  | sh => exact Laws.EncodeMatchesTable.sh ..
  | sw => exact Laws.EncodeMatchesTable.sw ..
  | lui => exact Laws.EncodeMatchesTable.lui ..
  | auipc => exact Laws.EncodeMatchesTable.auipc ..
  | jal => exact Laws.EncodeMatchesTable.jal ..
  | jalr => exact Laws.EncodeMatchesTable.jalr ..
  | beq => exact Laws.EncodeMatchesTable.beq ..
  | bne => exact Laws.EncodeMatchesTable.bne ..
  | blt => exact Laws.EncodeMatchesTable.blt ..
  | bge => exact Laws.EncodeMatchesTable.bge ..
  | bltu => exact Laws.EncodeMatchesTable.bltu ..
  | bgeu => exact Laws.EncodeMatchesTable.bgeu ..

theorem rowOf_mem_opcodeTable (i : Instr) : rowOf i ∈ opcodeTable := by
  cases i <;> simp [opcodeTable, rowOf]

/-- A field that the mask covers wholly has the pattern's value in every word of the row. -/
theorem field_of_row {w mask pattern : Word} (h : w &&& mask = pattern) (lo : Nat) {n : Nat}
    (hmask : mask.extractLsb' lo n = BitVec.allOnes n) : w.extractLsb' lo n = pattern.extractLsb' lo n := by
  rw [← h, BitVec.extractLsb'_and, hmask, BitVec.and_allOnes]

section
variable {w pattern : Word}

theorem opcodeOf_of_row (h : w &&& 0x0000007F#32 = pattern) : opcodeOf w = opcodeOf pattern := field_of_row h 0 rfl

theorem opcodeOf_funct3Of_of_row (h : w &&& 0x0000707F#32 = pattern) :
    opcodeOf w = opcodeOf pattern ∧ funct3Of w = funct3Of pattern :=
  ⟨field_of_row h 0 rfl, field_of_row h 12 rfl⟩

theorem opcodeOf_funct7Of_funct3Of_of_row (h : w &&& 0xFE00707F#32 = pattern) :
    opcodeOf w = opcodeOf pattern ∧ funct7Of w = funct7Of pattern ∧ funct3Of w = funct3Of pattern :=
  ⟨field_of_row h 0 rfl, field_of_row h 25 rfl, field_of_row h 12 rfl⟩

end

/-- A word of a row whose option is present has the row's selector fields, and so decodes to an instruction of that row. -/
theorem decodes_of_row {m : Bool} {w : Word} (i : Instr) (hoption : (rowOf i).needsMulDiv = true → m = true)
    (h : w &&& (rowOf i).mask = (rowOf i).pattern) : ∃ j, Decodes m w j ∧ rowOf j = rowOf i := by
  cases i with
  | add =>
    obtain ⟨ho, h7, h3⟩ := opcodeOf_funct7Of_funct3Of_of_row (pattern := 0x00000033#32) h
    exact ⟨_, .add ho h7 h3, rfl⟩
  | sub =>
    obtain ⟨ho, h7, h3⟩ := opcodeOf_funct7Of_funct3Of_of_row (pattern := 0x40000033#32) h
    exact ⟨_, .sub ho h7 h3, rfl⟩
  | mul =>
    obtain ⟨ho, h7, h3⟩ := opcodeOf_funct7Of_funct3Of_of_row (pattern := 0x02000033#32) h
    exact ⟨_, .mul ho h7 h3 (hoption rfl), rfl⟩
  | div =>
    obtain ⟨ho, h7, h3⟩ := opcodeOf_funct7Of_funct3Of_of_row (pattern := 0x02004033#32) h
    exact ⟨_, .div ho h7 h3 (hoption rfl), rfl⟩
  | lb =>
    obtain ⟨ho, h3⟩ := opcodeOf_funct3Of_of_row (pattern := 0x00000003#32) h
    exact ⟨_, .lb ho h3, rfl⟩
  | lh =>
    obtain ⟨ho, h3⟩ := opcodeOf_funct3Of_of_row (pattern := 0x00001003#32) h
    exact ⟨_, .lh ho h3, rfl⟩
  | lw =>
    obtain ⟨ho, h3⟩ := opcodeOf_funct3Of_of_row (pattern := 0x00002003#32) h
    exact ⟨_, .lw ho h3, rfl⟩
  | addi =>
    obtain ⟨ho, h3⟩ := opcodeOf_funct3Of_of_row (pattern := 0x00000013#32) h
    exact ⟨_, .addi ho h3, rfl⟩
  | ori =>
    obtain ⟨ho, h3⟩ := opcodeOf_funct3Of_of_row (pattern := 0x00006013#32) h
    exact ⟨_, .ori ho h3, rfl⟩
  | andi =>
    obtain ⟨ho, h3⟩ := opcodeOf_funct3Of_of_row (pattern := 0x00007013#32) h
    exact ⟨_, .andi ho h3, rfl⟩
  | sb =>
    obtain ⟨ho, h3⟩ := opcodeOf_funct3Of_of_row (pattern := 0x00000023#32) h
    exact ⟨_, .sb ho h3, rfl⟩
  | sh =>
    obtain ⟨ho, h3⟩ := opcodeOf_funct3Of_of_row (pattern := 0x00001023#32) h
    exact ⟨_, .sh ho h3, rfl⟩
  | sw =>
    obtain ⟨ho, h3⟩ := opcodeOf_funct3Of_of_row (pattern := 0x00002023#32) h
    exact ⟨_, .sw ho h3, rfl⟩
  | lui => exact ⟨_, .lui (opcodeOf_of_row (pattern := 0x00000037#32) h), rfl⟩
  | auipc => exact ⟨_, .auipc (opcodeOf_of_row (pattern := 0x00000017#32) h), rfl⟩
  | jal => exact ⟨_, .jal (opcodeOf_of_row (pattern := 0x0000006F#32) h), rfl⟩
  | jalr =>
    obtain ⟨ho, h3⟩ := opcodeOf_funct3Of_of_row (pattern := 0x00000067#32) h
    exact ⟨_, .jalr ho h3, rfl⟩
  | beq =>
    obtain ⟨ho, h3⟩ := opcodeOf_funct3Of_of_row (pattern := 0x00000063#32) h
    exact ⟨_, .beq ho h3, rfl⟩
  | bne =>
    obtain ⟨ho, h3⟩ := opcodeOf_funct3Of_of_row (pattern := 0x00001063#32) h
    exact ⟨_, .bne ho h3, rfl⟩
  | blt =>
    obtain ⟨ho, h3⟩ := opcodeOf_funct3Of_of_row (pattern := 0x00004063#32) h
    exact ⟨_, .blt ho h3, rfl⟩
  | bge =>
    obtain ⟨ho, h3⟩ := opcodeOf_funct3Of_of_row (pattern := 0x00005063#32) h
    exact ⟨_, .bge ho h3, rfl⟩
  | bltu =>
    obtain ⟨ho, h3⟩ := opcodeOf_funct3Of_of_row (pattern := 0x00006063#32) h
    exact ⟨_, .bltu ho h3, rfl⟩
  | bgeu =>
    obtain ⟨ho, h3⟩ := opcodeOf_funct3Of_of_row (pattern := 0x00007063#32) h
    exact ⟨_, .bgeu ho h3, rfl⟩

/-- Every row of the table is the row of an instruction. -/
theorem exists_rowOf_of_mem {row : OpcodeRow} (h : row ∈ opcodeTable) : ∃ i, row = rowOf i := by
  have hall : ∀ r ∈ opcodeTable, ∃ i, r = rowOf i := by
    simp only [opcodeTable, List.forall_mem_cons]
    exact ⟨⟨_, rfl⟩, ⟨_, rfl⟩, ⟨_, rfl⟩, ⟨_, rfl⟩, ⟨_, rfl⟩, ⟨_, rfl⟩, ⟨_, rfl⟩, ⟨_, rfl⟩, ⟨_, rfl⟩, ⟨_, rfl⟩, ⟨_, rfl⟩,
      ⟨_, rfl⟩, ⟨_, rfl⟩, ⟨_, rfl⟩, ⟨_, rfl⟩, ⟨_, rfl⟩, ⟨_, rfl⟩, ⟨_, rfl⟩, ⟨_, rfl⟩, ⟨_, rfl⟩, ⟨_, rfl⟩, ⟨_, rfl⟩, ⟨_, rfl⟩,
      by simp⟩
  exact hall row h

/-- Settles O18, instruction by instruction: the selectors are constants, and the immediate survives its format. -/
theorem decodeOfEncodeIsTheInstruction : Obligations.DecodeOfEncodeIsTheInstruction := decode_encode

/-- Settles O19: a word that decodes is made up of the fields of its instruction. -/
theorem encodeOfDecodeIsTheWord : Obligations.EncodeOfDecodeIsTheWord := by
  intro m w i h
  have hd := decodes_of_decode h
  exact ⟨encode_of_decodes hd, wellFormed_of_decodes hd, Machine.present_of_decode h⟩

/-- Settles O20: a word that decodes is the word of its instruction, which lies in the row; a word of a row has its selectors. -/
theorem decoderAgreesWithTheOpcodeTable : Obligations.DecoderAgreesWithTheOpcodeTable := by
  refine ⟨fun m w i h => ⟨rowOf_mem_opcodeTable i, ?_⟩, fun m w row hrow hoption h => ?_⟩
  · rw [← encode_of_decodes (decodes_of_decode h)]
    exact encode_matches_row i
  · obtain ⟨i, rfl⟩ := exists_rowOf_of_mem hrow
    obtain ⟨j, hj, hrowOf⟩ := decodes_of_row i hoption h
    exact ⟨j, decode_of_decodes hj, hrowOf⟩

/-- Settles O17: the bits and the range of the store immediate, and `Decodes` for the stores. -/
theorem storeImmediateIsSignExtended : Obligations.StoreImmediateIsSignExtended := by
  refine ⟨fun w => ⟨fitsImm12_signExtend _, fun k hk => getLsbD_immS w hk⟩, fun m w i h => ?_⟩
  cases decodes_of_decode h with
  | sb | sh | sw => rfl
  | add | sub | mul | div | lb | lh | lw | addi | ori | andi | lui | auipc | jal | jalr => exact trivial
  | beq | bne | blt | bge | bltu | bgeu => exact trivial

/-- Settles O24: the opcode is the only selector of these three. -/
theorem upperImmediatesAndJalNeverFault : Obligations.UpperImmediatesAndJalNeverFault := fun _ _ =>
  ⟨fun ho => decode_of_decodes (.lui ho), fun ho => decode_of_decodes (.auipc ho), fun ho => decode_of_decodes (.jal ho)⟩

/-- Settles O25 by running the decoder on the sixteen words. -/
theorem wordsOfTheSpecDecode : Obligations.WordsOfTheSpecDecode := by
  unfold Obligations.WordsOfTheSpecDecode
  decide

end Sys2Proof
end

section
/-! PROOFS. The decode faults (spec 60 R221): which field each class of the decoder reports. Settles O21, O22 and O23. -/

namespace Sys2Proof

section
variable {m : Bool} {w : Word} {d : DecodeFault}

theorem decodeOp_error (h : decodeOp m w = .error d) :
    d = if funct7Of w ≠ 0x00#7 ∧ funct7Of w ≠ 0x20#7 ∧ ¬ (funct7Of w = 0x01#7 ∧ m = true) then
          ⟨.funct7, (funct7Of w).toNat⟩
        else ⟨.funct3, (funct3Of w).toNat⟩ := by
  simp only [decodeOp, funct3Fault, funct7Fault] at h
  split_ifs at h with h0 _ h20 _ h1 _ _ <;> cases h
  · rw [if_neg fun hne => hne.1 h0]
  · rw [if_neg fun hne => hne.2.1 h20]
  · rw [if_neg fun hne => hne.2.2 h1]
  · rw [if_pos ⟨h0, h20, h1⟩]

theorem decodeLoad_error (h : decodeLoad w = .error d) : d = ⟨.funct3, (funct3Of w).toNat⟩ := by
  simp only [decodeLoad, funct3Fault] at h
  split_ifs at h
  cases h
  rfl

theorem decodeOpImm_error (h : decodeOpImm w = .error d) : d = ⟨.funct3, (funct3Of w).toNat⟩ := by
  simp only [decodeOpImm, funct3Fault] at h
  split_ifs at h
  cases h
  rfl

theorem decodeStore_error (h : decodeStore w = .error d) : d = ⟨.funct3, (funct3Of w).toNat⟩ := by
  simp only [decodeStore, funct3Fault] at h
  split_ifs at h
  cases h
  rfl

theorem decodeJalr_error (h : decodeJalr w = .error d) : d = ⟨.funct3, (funct3Of w).toNat⟩ := by
  simp only [decodeJalr, funct3Fault] at h
  split_ifs at h
  cases h
  rfl

theorem decodeBranch_error (h : decodeBranch w = .error d) : d = ⟨.funct3, (funct3Of w).toNat⟩ := by
  simp only [decodeBranch, funct3Fault] at h
  split_ifs at h
  cases h
  rfl

end

/-- Settles O21: the decoder tests the opcode first, and each class reports its own failing field. -/
theorem decodeFaultNamesTheFirstFailingField : Obligations.DecodeFaultNamesTheFirstFailingField := by
  intro m w d h
  unfold decode at h
  split_ifs at h with hop hload hopImm hstore hlui hauipc hjal hjalr hbranch
  · rw [decodeOp_error h]
    simp [hop]
  · rw [decodeLoad_error h]
    simp [hload]
  · rw [decodeOpImm_error h]
    simp [hopImm]
  · rw [decodeStore_error h]
    simp [hstore]
  · rw [decodeJalr_error h]
    simp [hjalr]
  · rw [decodeBranch_error h]
    simp [hbranch]
  · cases h
    simp [hop, hload, hopImm, hstore, hlui, hauipc, hjal, hjalr, hbranch]

/-- Settles O22: under these selectors the decoder comes to its test of `funct3`, which fails. -/
theorem absentIntegerFormsFault : Obligations.AbsentIntegerFormsFault := by
  refine ⟨fun m w ho h7 h3 => ?_, fun m w ho h3 => ?_, by decide⟩
  · rcases h7 with h7 | h7 <;> simp [decode, decodeOp, funct3Fault, ho, h7, h3]
  · have hne : funct3Of w ≠ 0b000#3 ∧ funct3Of w ≠ 0b110#3 ∧ funct3Of w ≠ 0b111#3 := by
      refine ⟨fun e => ?_, fun e => ?_, fun e => ?_⟩ <;> simp [e] at h3
    obtain ⟨h0, h6, h7⟩ := hne
    simp [decode, decodeOpImm, funct3Fault, ho, h0, h6, h7]

/-- Settles O23: `funct7` of MUL and DIV passes its test only with the option, and then `funct3` is tested. -/
theorem mulDivExistOnlyWithTheOption : Obligations.MulDivExistOnlyWithTheOption := by
  refine ⟨fun w ho h7 => ?_, fun w ho h7 h0 h4 => ?_⟩
  · simp [decode, decodeOp, funct7Fault, ho, h7]
  · simp [decode, decodeOp, funct3Fault, ho, h7, h0, h4]

end Sys2Proof
end

section
/-! PROOFS. The memory (spec 20): reads and writes inside the array, a load after a store, which cells an instruction can change or
depend on, and that a stored word is fetched next. Settles O9, O10, O11, O12, O13 and O14. -/

namespace Sys2Proof.Machine

theorem toNat_zext (n : Width) (v : Word) : (zext n.bits v).toNat = v.toNat % 2 ^ n.bits := by
  have hle : n.bits ≤ 32 := by cases n <;> decide
  have hlt : v.toNat % 2 ^ n.bits < 2 ^ 32 :=
    (Nat.mod_lt _ (Nat.two_pow_pos _)).trans_le (Nat.pow_le_pow_right (by decide) hle)
  rw [zext, BitVec.toNat_setWidth, BitVec.toNat_setWidth, Nat.mod_eq_of_lt hlt]

theorem cellIndex_of_inArray {s : State} {addr : Word} (h : InArray s addr) : s.cellIndex addr = some addr.toInt.toNat :=
  (cellIndex_eq_some s addr _).2 ⟨h, rfl⟩

theorem memRead_inside {s : State} {addr : Word} (n : Width) (h : InArray s addr) :
    s.memRead addr n = .ok (zext n.bits (cellOf s addr)) := by
  simp [State.memRead, cellIndex_of_inArray h, cellOf]

theorem memRead_outside {s : State} {addr : Word} (n : Width) (h : ¬ InArray s addr) :
    s.memRead addr n = .error (.outOfRange addr.toInt) := by
  simp [State.memRead, (cellIndex_eq_none s addr).2 h]

theorem memWrite_inside {s : State} {addr : Word} (n : Width) (v : Word) (h : InArray s addr) :
    s.memWrite addr n v = .ok (s.setMem (putCell s.mem addr.toInt.toNat (zext n.bits v))) := by
  simp [State.memWrite, cellIndex_of_inArray h]

theorem memWrite_outside {s : State} {addr : Word} (n : Width) (v : Word) (h : ¬ InArray s addr) :
    s.memWrite addr n v = .error (.outOfRange addr.toInt) := by
  simp [State.memWrite, (cellIndex_eq_none s addr).2 h]

/-- Settles O9: `zext` keeps the value modulo a power of two. -/
theorem memReadKeepsTheLowBits : Obligations.MemReadKeepsTheLowBits := fun _ _ n =>
  ⟨fun h => ⟨_, memRead_inside n h, toNat_zext n _⟩, memRead_outside n⟩

/-- Settles O10: one cell is replaced, and a cell write touches the memory alone. -/
theorem memWriteReplacesTheWholeCell : Obligations.MemWriteReplacesTheWholeCell := by
  refine fun s addr n v => ⟨fun h => ⟨_, memWrite_inside n v h, ?_, fun a ha => ?_, rfl, rfl, rfl, rfl, rfl, rfl⟩,
    memWrite_outside n v⟩
  · rw [cellOf, setMem_mem, cellAt_putCell, if_pos rfl, toNat_zext]
  · rw [setMem_mem, cellAt_putCell, if_neg ha]

/-! A load after a store. -/

/-- A load at the address of the store before it gives the stored low bits, sign-extended from the width of the load. -/
theorem load_after_store (n k : Width) {rd rs1 rs2 : RegIdx} {imm x : Word} {s : State} (hrd : rd ≠ 0#5)
    (hin : InArray s (s.readReg rs1 + imm)) (hx : sext k.bits (zext n.bits (s.readReg rs2)) = x) :
    ∃ t u, storeLow n rs2 rs1 imm s = .next t ∧ loadSigned k rd rs1 imm t = .next u ∧ u.readReg rd = x := by
  refine ⟨_, _, storeLow_inside n rs2 rs1 imm s hin, loadSigned_inside k rd rs1 imm _ hin, ?_⟩
  simp [readReg_writeReg_same _ _ _ hrd, cellAt_putCell, effectiveAddress, hx]

/-- Settles O11: `load_after_store` at the five pairs of widths. -/
theorem loadAfterStoreToTheSameCell : Obligations.LoadAfterStoreToTheSameCell := by
  intro rd rs1 rs2 imm s hrd hin
  refine ⟨?_, ?_, ?_, ?_, ?_⟩
  · exact load_after_store .word .word hrd hin ((sext_word _).trans (zext_word _))
  · exact load_after_store .half .half hrd hin (sext_zext 16 _)
  · exact load_after_store .half .word hrd hin (sext_word _)
  · exact load_after_store .byte .byte hrd hin (sext_zext 8 _)
  · exact load_after_store .byte .word hrd hin (sext_word _)

/-- Settles O12: the step is the store, and the next fetch reads the cell it wrote. -/
theorem storedWordIsTheNextFetch : Obligations.StoredWordIsTheNextFetch := by
  intro rs2 rs1 imm s h haddr hin
  have hea : effectiveAddress s rs1 imm = s.pc + 1#32 := haddr
  have hstep := (step_of_aboutToExecute h).trans (storeLow_inside .word rs2 rs1 imm s (by rwa [hea]))
  refine ⟨_, hstep, rfl, ?_⟩
  rw [fetch_of_inArray (by exact hin)]
  simp [cellOf, cellAt_putCell, hea, Width.bits, zext_word]

/-- Settles O13: of the effects only a store's writes a cell, the one of its data address. -/
theorem onlyStoresChangeMemory : Obligations.OnlyStoresChangeMemory := by
  intro i s t h
  have he := exec_effect i s
  rw [h] at he
  cases he with
  | register _ _ _ _ hs | branch _ _ hs => exact ⟨fun _ => by simp, fun hstore => by simp [hs] at hstore⟩
  | divByZero | absent => exact ⟨fun _ => rfl, fun _ _ _ _ _ => rfl⟩
  | store addr a v hs _ haddr hcell =>
    refine ⟨fun hno => by simp [hs] at hno, fun _ addr' haddr' b hb => ?_⟩
    obtain rfl : addr = addr' := Option.some.inj (haddr.symm.trans haddr')
    obtain ⟨_, rfl⟩ := (cellIndex_eq_some s addr a).1 hcell
    simp [cellAt_putCell, hb]

/-! A cell that is not accessed has no influence. -/

/-- The two outcomes are of the same kind and differ in nothing but cell `c`, which holds `v` in the second. -/
inductive SameButCell (c : Nat) (v : Word) :
    Host.Outcome State Fault Refusal → Host.Outcome State Fault Refusal → Prop where
  | next {t t' : State} (hpc : t'.pc = t.pc) (hstatus : t'.status = t.status) (hregs : ∀ r, t'.readReg r = t.readReg r)
      (hcells : ∀ b, cellAt t'.mem b = if b = c then v else cellAt t.mem b) : SameButCell c v (.next t) (.next t')
  | fault (f : Fault) : SameButCell c v (.fault f) (.fault f)

section
variable (s : State) (c : Nat) (v : Word)

/-- The same register write and the same `pc`. -/
theorem writeReg_setPc_sameButCell (rd : RegIdx) (x p : Word) :
    SameButCell c v (.next ((s.writeReg rd x).setPc p)) (.next (((s.setMem (putCell s.mem c v)).writeReg rd x).setPc p)) :=
  .next rfl (by simp) (by simp [readReg_writeReg]) (by simp [cellAt_putCell])

theorem writeAndAdvance_sameButCell (rd : RegIdx) (x : Word) :
    SameButCell c v (writeAndAdvance rd x s) (writeAndAdvance rd x (s.setMem (putCell s.mem c v))) := by
  rw [writeAndAdvance_eq, writeAndAdvance_eq]
  exact writeReg_setPc_sameButCell s c v rd x _

theorem linkAndJump_sameButCell (rd : RegIdx) (p : Word) :
    SameButCell c v (linkAndJump rd p s) (linkAndJump rd p (s.setMem (putCell s.mem c v))) := by
  rw [linkAndJump_eq, linkAndJump_eq]
  exact writeReg_setPc_sameButCell s c v rd _ p

theorem branchIf_sameButCell (taken : Bool) (imm : Word) :
    SameButCell c v (branchIf taken imm s) (branchIf taken imm (s.setMem (putCell s.mem c v))) := by
  rw [branchIf_eq, branchIf_eq]
  exact .next rfl rfl (fun _ => rfl) (cellAt_putCell s.mem c · v)

theorem raise_sameButCell (f : HwFault) :
    SameButCell c v (.next (s.raise f)) (.next ((s.setMem (putCell s.mem c v)).raise f)) :=
  .next rfl rfl (fun _ => rfl) (cellAt_putCell s.mem c · v)

theorem loadSigned_sameButCell (n : Width) (rd rs1 : RegIdx) (imm : Word)
    (hc : InArray s (effectiveAddress s rs1 imm) → (effectiveAddress s rs1 imm).toInt.toNat ≠ c) :
    SameButCell c v (loadSigned n rd rs1 imm s) (loadSigned n rd rs1 imm (s.setMem (putCell s.mem c v))) := by
  have ha : effectiveAddress (s.setMem (putCell s.mem c v)) rs1 imm = effectiveAddress s rs1 imm := rfl
  by_cases hin : InArray s (effectiveAddress s rs1 imm)
  · rw [loadSigned_inside _ _ _ _ s hin, loadSigned_inside _ _ _ _ _ (by exact hin), ha, setMem_mem, cellAt_putCell,
      if_neg (hc hin)]
    exact writeReg_setPc_sameButCell s c v rd _ _
  · rw [loadSigned_outside _ _ _ _ s hin, loadSigned_outside _ _ _ _ _ (by exact hin)]
    exact .fault _

theorem storeLow_sameButCell (n : Width) (rs2 rs1 : RegIdx) (imm : Word)
    (hc : InArray s (effectiveAddress s rs1 imm) → (effectiveAddress s rs1 imm).toInt.toNat ≠ c) :
    SameButCell c v (storeLow n rs2 rs1 imm s) (storeLow n rs2 rs1 imm (s.setMem (putCell s.mem c v))) := by
  have ha : effectiveAddress (s.setMem (putCell s.mem c v)) rs1 imm = effectiveAddress s rs1 imm := rfl
  by_cases hin : InArray s (effectiveAddress s rs1 imm)
  · rw [storeLow_inside _ _ _ _ s hin, storeLow_inside _ _ _ _ _ (by exact hin), ha]
    refine .next rfl rfl (fun _ => rfl) fun b => ?_
    have hne := hc hin
    simp only [setPc_mem, setMem_mem, cellAt_putCell, readReg_setMem]
    by_cases hb : b = c
    · simp [hb, hne.symm]
    · simp [hb]
  · rw [storeLow_outside _ _ _ _ s hin, storeLow_outside _ _ _ _ _ (by exact hin)]
    exact .fault _

theorem execMul_sameButCell (rd rs1 rs2 : RegIdx) :
    SameButCell c v (execMul rd rs1 rs2 s) (execMul rd rs1 rs2 (s.setMem (putCell s.mem c v))) := by
  by_cases hm : s.config.hasMulDiv = true
  · rw [execMul_present _ _ _ hm, execMul_present _ _ _ (by exact hm)]
    exact writeAndAdvance_sameButCell s c v rd _
  · rw [execMul_absent _ _ _ hm, execMul_absent _ _ _ (by exact hm)]
    exact raise_sameButCell s c v _

theorem execDiv_sameButCell (rd rs1 rs2 : RegIdx) :
    SameButCell c v (execDiv rd rs1 rs2 s) (execDiv rd rs1 rs2 (s.setMem (putCell s.mem c v))) := by
  by_cases hm : s.config.hasMulDiv = true
  · by_cases hz : s.readReg rs2 = 0#32
    · rw [execDiv_zero _ _ hm hz, execDiv_zero _ _ (by exact hm) (by exact hz)]
      exact raise_sameButCell s c v _
    · rw [execDiv_nonzero _ _ hm hz, execDiv_nonzero _ _ (by exact hm) (by exact hz)]
      exact writeAndAdvance_sameButCell s c v rd _
  · rw [execDiv_absent _ _ _ hm, execDiv_absent _ _ _ (by exact hm)]
    exact raise_sameButCell s c v _

/-- An instruction depends on no cell but that of its data access (spec 20 R58). -/
theorem exec_sameButCell (i : Instr)
    (hc : ∀ addr, dataAddress i s = some addr → InArray s addr → addr.toInt.toNat ≠ c) :
    SameButCell c v (exec i s) (exec i (s.setMem (putCell s.mem c v))) := by
  cases i with
  | add | sub | addi | ori | andi | lui | auipc => exact writeAndAdvance_sameButCell s c v _ _
  | mul => exact execMul_sameButCell s c v _ _ _
  | div => exact execDiv_sameButCell s c v _ _ _
  | lb | lh | lw => exact loadSigned_sameButCell s c v _ _ _ _ (hc _ rfl)
  | sb | sh | sw => exact storeLow_sameButCell s c v _ _ _ _ (hc _ rfl)
  | jal | jalr => exact linkAndJump_sameButCell s c v _ _
  | beq | bne | blt | bge | bltu | bgeu => exact branchIf_sameButCell s c v _ _

end

/-- Settles O14: the outcomes differ in cell `c` alone, by the shape of each instruction. -/
theorem otherCellsAreIrrelevant : Obligations.OtherCellsAreIrrelevant := by
  intro i s c v hc
  have hsame := exec_sameButCell s c v i hc
  generalize exec i s = o at hsame ⊢
  generalize exec i (s.setMem (putCell s.mem c v)) = o' at hsame ⊢
  cases hsame with
  | next hpc hstatus hregs hcells =>
    exact ⟨hpc, hstatus, hregs, fun b hb => by rw [hcells, if_neg hb], by rw [hcells, if_pos rfl]⟩
  | fault f => rfl

end Sys2Proof.Machine
end

section
/-! PROOFS. The loop (spec 40, spec 60): where a step stops, how a run ends, what stays fixed in a run, where `pc` goes, and runs
that never end. Settles O26 to O35 and O59. -/

namespace Sys2Proof.Machine

/-- Settles O26: the loop test, the fetch and the decoder's answer lead to `exec`. -/
theorem stepRunsTheDecodedInstruction : Obligations.StepRunsTheDecodedInstruction := fun _ _ => step_of_aboutToExecute

/-- Settles O27: the loop test, the decoder's answer and `status` decide the three kinds. -/
theorem stepsThatRunNoInstruction : Obligations.StepsThatRunNoInstruction := by
  refine fun s => ⟨fun hrun hbound => ?_, fun w d hrun hbound hfetch hdecode => ?_, step_of_not_running⟩
  · exact step_of_bound_reached hrun ((fetchAllowed_eq_false_iff s).2 hbound)
  · exact step_of_decode_error hrun ((fetchAllowed_eq_true_iff s).2 hbound) hfetch hdecode

/-! Where a step stops. -/

/-- A data access outside the array stops the instruction (log 4). -/
theorem exec_outside {i : Instr} {s : State} {addr : Word} (ha : dataAddress i s = some addr) (hout : ¬ InArray s addr) :
    exec i s = .fault (.outOfRange addr.toInt) := by
  cases i with
  | lb | lh | lw =>
    cases ha
    exact loadSigned_outside _ _ _ _ _ hout
  | sb | sh | sw =>
    cases ha
    exact storeLow_outside _ _ _ _ _ hout
  | add | sub | mul | div | addi | ori | andi | lui | auipc | jal | jalr => cases ha
  | beq | bne | blt | bge | bltu | bgeu => cases ha

theorem inArray_of_exec_next {i : Instr} {s t : State} {addr : Word} (h : exec i s = .next t)
    (ha : dataAddress i s = some addr) : InArray s addr := by
  by_contra hout
  cases h.symm.trans (exec_outside ha hout)

theorem inArray_of_fetch_ok {s : State} {w : Word} (h : s.fetch = .ok w) : InArray s s.pc := by
  rcases fetch_cases s with ⟨a, hcell, _⟩ | ⟨_, he⟩
  · exact ((cellIndex_eq_some s _ _).1 hcell).1
  · cases h.symm.trans he

/-- An instruction whose data access, if any, lies in the array answers a next state. -/
theorem exec_next_of_inArray {i : Instr} {s : State} (h : ∀ addr, dataAddress i s = some addr → InArray s addr) :
    ∃ t, exec i s = .next t := by
  have he := exec_effect i s
  generalize exec i s = o at he ⊢
  cases he with
  | register | branch | store | divByZero | absent => exact ⟨_, rfl⟩
  | outOfRange addr ha hout => exact absurd (h addr ha) hout

theorem safeStep_of_step_next {s t : State} (h : step s = .next t) : SafeStep s := by
  intro hrun hbound
  have hexec (i : Instr) (hi : AboutToExecute s i) : exec i s = .next t := (step_of_aboutToExecute hi).symm.trans h
  refine ⟨?_, fun i addr hi ha => inArray_of_exec_next (hexec i hi) ha⟩
  cases runningNext_of_step hrun h with
  | goesOn hi | divByZero hi =>
    obtain ⟨_, _, _, hfetch, _⟩ := hi
    exact inArray_of_fetch_ok hfetch
  | decodeFault _ hfetch => exact inArray_of_fetch_ok hfetch
  | halts hpast => simp [hbound] at hpast

theorem step_next_of_safeStep {s : State} (h : SafeStep s) : ∃ t, step s = .next t := by
  have he := step_effect s
  generalize step s = o at he ⊢
  cases he with
  | still | halts | decodeFault => exact ⟨_, rfl⟩
  | fetchOutside hrun hbound hout => exact absurd (h hrun hbound).1 hout
  | executes w i hrun hbound hfetch hdecode =>
    obtain ⟨_, hdata⟩ := h hrun hbound
    exact exec_next_of_inArray fun addr ha => hdata i addr ⟨hrun, hbound, w, hfetch, hdecode⟩ ha

/-- The one stop of a step is an access outside the array, of the fetch or of the instruction. -/
theorem step_fault {s : State} {f : Fault} (h : step s = .fault f) :
    ∃ addr, f = .outOfRange addr.toInt ∧ ¬ InArray s addr ∧
      (addr = s.pc ∨ ∃ i, AboutToExecute s i ∧ dataAddress i s = some addr) := by
  have he := step_effect s
  generalize hs : step s = o at he h
  cases he with
  | still | halts | decodeFault => cases h
  | fetchOutside _ _ hout =>
    cases h
    exact ⟨s.pc, rfl, hout, .inl rfl⟩
  | executes w i hrun hbound hfetch hdecode =>
    have hi := exec_effect i s
    rw [h] at hi
    cases hi with
    | outOfRange addr ha hout => exact ⟨addr, rfl, hout, .inr ⟨i, ⟨hrun, hbound, w, hfetch, hdecode⟩, ha⟩⟩

theorem step_ne_refused (s : State) (r : Refusal) : step s ≠ .refused r := by
  intro h
  have he := step_effect s
  generalize step s = o at he h
  cases he with
  | still | halts | fetchOutside | decodeFault => cases h
  | executes w i =>
    have hi := exec_effect i s
    rw [h] at hi
    cases hi

/-- Settles O28: an access outside the array stops, and nothing else does. -/
theorem stepStopsExactlyOutsideTheArray : Obligations.StepStopsExactlyOutsideTheArray := fun s =>
  ⟨⟨fun ⟨_, h⟩ => safeStep_of_step_next h, step_next_of_safeStep⟩, fun _ => step_fault, step_ne_refused s⟩

/-! How a run ends. -/

/-- Settles O29: the two outcomes that fault are `tookFault`. -/
theorem faultsArePrecise : Obligations.FaultsArePrecise := by
  intro s t f hrun h hstatus
  cases runningNext_of_step hrun h with
  | goesOn _ _ hgoes => cases hgoes.symm.trans hstatus
  | halts => cases hstatus
  | decodeFault | divByZero =>
    cases hstatus
    rfl

/-- DIV by zero is the one outcome of a running machine that records ArithmeticFault. -/
theorem divByZero_of_arithmetic {s t : State} (hrun : s.status = .running) (h : step s = .next t)
    (hstatus : t.status = .faulted .arithmetic) :
    ∃ rd rs1 rs2, AboutToExecute s (.div rd rs1 rs2) ∧ s.readReg rs2 = 0#32 := by
  cases runningNext_of_step hrun h with
  | goesOn _ _ hgoes => cases hgoes.symm.trans hstatus
  | halts | decodeFault => cases hstatus
  | divByZero hi hz => exact ⟨_, _, _, hi, hz⟩

theorem step_of_divByZero {s : State} {rd rs1 rs2 : RegIdx} (hi : AboutToExecute s (.div rd rs1 rs2))
    (hz : s.readReg rs2 = 0#32) : step s = .next (tookFault s .arithmetic) :=
  (step_of_aboutToExecute hi).trans (execDiv_zero rd rs1 (present_of_aboutToExecute hi) hz)

/-- Settles O30: the inversion of the step one way, the meaning of DIV the other, and O29 for what is unchanged. -/
theorem arithmeticFaultIsDivisionByZeroOnly : Obligations.ArithmeticFaultIsDivisionByZeroOnly := by
  intro s t hrun h
  refine ⟨⟨divByZero_of_arithmetic hrun h, fun ⟨rd, rs1, rs2, hi, hz⟩ => ?_⟩, fun hstatus => ⟨?_, ?_⟩⟩
  · cases h.symm.trans (step_of_divByZero hi hz)
    rfl
  · obtain ⟨_, _, _, hi, _⟩ := divByZero_of_arithmetic hrun h hstatus
    exact present_of_aboutToExecute hi
  · exact faultsArePrecise s t .arithmetic hrun h hstatus

/-- Settles O31: the four outcomes of a step, and an ended run is a fixed point of it. -/
theorem runEndsOnlyAtTheBoundOrOnAFault : Obligations.RunEndsOnlyAtTheBoundOrOnAFault := by
  intro s t hrun h
  refine ⟨?_, fun hended => run_of_fixed (step_of_not_running hended)⟩
  cases runningNext_of_step hrun h with
  | goesOn _ _ hgoes => exact .inl hgoes
  | halts hbound => exact .inr (.inl ⟨rfl, (fetchAllowed_eq_false_iff s).1 hbound⟩)
  | decodeFault _ hfetch hdecode => exact .inr (.inr (.inl ⟨_, _, rfl, hfetch, hdecode⟩))
  | divByZero hi hz => exact .inr (.inr (.inr ⟨rfl, _, _, _, hi, hz⟩))

/-! What stays fixed: the bound is read by no instruction. -/

/-- The outcome with the bound of its next state, if it is one, set to `n`. -/
def withCount (n : Word) : Host.Outcome State Fault Refusal → Host.Outcome State Fault Refusal
  | .next t => .next (t.setCount n)
  | .fault f => .fault f
  | .refused r => .refused r

section
variable (s : State) (n : Word)

theorem writeReg_setCount (i : RegIdx) (v : Word) : (s.setCount n).writeReg i v = (s.writeReg i v).setCount n := by
  unfold State.writeReg
  split <;> rfl

theorem writeAndAdvance_setCount (rd : RegIdx) (v : Word) :
    writeAndAdvance rd v (s.setCount n) = withCount n (writeAndAdvance rd v s) := by
  simp only [writeAndAdvance, writeReg_setCount]
  rfl

theorem linkAndJump_setCount (rd : RegIdx) (p : Word) :
    linkAndJump rd p (s.setCount n) = withCount n (linkAndJump rd p s) := by
  simp only [linkAndJump, writeReg_setCount]
  rfl

theorem loadSigned_setCount (k : Width) (rd rs1 : RegIdx) (imm : Word) :
    loadSigned k rd rs1 imm (s.setCount n) = withCount n (loadSigned k rd rs1 imm s) := by
  by_cases hin : InArray s (effectiveAddress s rs1 imm)
  · rw [loadSigned_inside _ _ _ _ s hin, loadSigned_inside _ _ _ _ _ (by exact hin), writeReg_setCount]
    rfl
  · rw [loadSigned_outside _ _ _ _ s hin, loadSigned_outside _ _ _ _ _ (by exact hin)]
    rfl

theorem storeLow_setCount (k : Width) (rs2 rs1 : RegIdx) (imm : Word) :
    storeLow k rs2 rs1 imm (s.setCount n) = withCount n (storeLow k rs2 rs1 imm s) := by
  by_cases hin : InArray s (effectiveAddress s rs1 imm)
  · rw [storeLow_inside _ _ _ _ s hin, storeLow_inside _ _ _ _ _ (by exact hin)]
    rfl
  · rw [storeLow_outside _ _ _ _ s hin, storeLow_outside _ _ _ _ _ (by exact hin)]
    rfl

theorem execMul_setCount (rd rs1 rs2 : RegIdx) : execMul rd rs1 rs2 (s.setCount n) = withCount n (execMul rd rs1 rs2 s) := by
  by_cases hm : s.config.hasMulDiv = true
  · rw [execMul_present _ _ _ hm, execMul_present _ _ _ (by exact hm)]
    exact writeAndAdvance_setCount s n rd _
  · rw [execMul_absent _ _ _ hm, execMul_absent _ _ _ (by exact hm)]
    rfl

theorem execDiv_setCount (rd rs1 rs2 : RegIdx) : execDiv rd rs1 rs2 (s.setCount n) = withCount n (execDiv rd rs1 rs2 s) := by
  by_cases hm : s.config.hasMulDiv = true
  · by_cases hz : s.readReg rs2 = 0#32
    · rw [execDiv_zero _ _ hm hz, execDiv_zero _ _ (by exact hm) (by exact hz)]
      rfl
    · rw [execDiv_nonzero _ _ hm hz, execDiv_nonzero _ _ (by exact hm) (by exact hz)]
      exact writeAndAdvance_setCount s n rd _
  · rw [execDiv_absent _ _ _ hm, execDiv_absent _ _ _ (by exact hm)]
    rfl

theorem exec_setCount (i : Instr) : exec i (s.setCount n) = withCount n (exec i s) := by
  cases i with
  | add | sub | addi | ori | andi | lui | auipc => exact writeAndAdvance_setCount s n _ _
  | mul => exact execMul_setCount s n _ _ _
  | div => exact execDiv_setCount s n _ _ _
  | lb | lh | lw => exact loadSigned_setCount s n _ _ _ _
  | sb | sh | sw => exact storeLow_setCount s n _ _ _ _
  | jal | jalr => exact linkAndJump_setCount s n _ _
  | beq | bne | blt | bge | bltu | bgeu => rfl

end

/-- Settles O32: the frame of a step, and `exec_setCount`. -/
theorem boundAndParametersAreFixedInARun : Obligations.BoundAndParametersAreFixedInARun := by
  refine ⟨fun s t => step_frame, fun i s n => ?_⟩
  rw [exec_setCount]
  cases exec i s <;> rfl

/-! Where `pc` goes. -/

section
variable {s t : State}

theorem writeAndAdvance_pc {rd : RegIdx} {v : Word} (h : writeAndAdvance rd v s = .next t) : t.pc = s.pc + 1#32 := by
  rw [writeAndAdvance_eq] at h
  cases h
  rfl

theorem linkAndJump_pc {rd : RegIdx} {p : Word} (h : linkAndJump rd p s = .next t) : t.pc = p := by
  rw [linkAndJump_eq] at h
  cases h
  rfl

theorem branchIf_pc {taken : Bool} {imm : Word} (h : branchIf taken imm s = .next t) :
    t.pc = s.pc + imm ∨ t.pc = s.pc + 1#32 := by
  rw [branchIf_eq] at h
  cases h
  cases taken with
  | true => exact .inl rfl
  | false => exact .inr rfl

theorem loadSigned_pc {n : Width} {rd rs1 : RegIdx} {imm : Word} (h : loadSigned n rd rs1 imm s = .next t) :
    t.pc = s.pc + 1#32 := by
  rcases loadSigned_cases n rd rs1 imm s with ⟨a, _, e⟩ | ⟨_, e⟩ <;> rw [e] at h
  · exact writeAndAdvance_pc h
  · cases h

theorem storeLow_pc {n : Width} {rs2 rs1 : RegIdx} {imm : Word} (h : storeLow n rs2 rs1 imm s = .next t) :
    t.pc = s.pc + 1#32 := by
  rcases storeLow_cases n rs2 rs1 imm s with ⟨a, _, e⟩ | ⟨_, e⟩ <;> rw [e] at h <;> cases h
  rfl

theorem execMul_pc {rd rs1 rs2 : RegIdx} (h : execMul rd rs1 rs2 s = .next t) (hgoes : t.status = .running) :
    t.pc = s.pc + 1#32 := by
  by_cases hm : s.config.hasMulDiv = true
  · exact writeAndAdvance_pc ((execMul_present _ _ _ hm).symm.trans h)
  · cases (execMul_absent _ _ _ hm).symm.trans h
    cases hgoes

theorem execDiv_pc {rd rs1 rs2 : RegIdx} (h : execDiv rd rs1 rs2 s = .next t) (hgoes : t.status = .running) :
    t.pc = s.pc + 1#32 := by
  by_cases hm : s.config.hasMulDiv = true
  · by_cases hz : s.readReg rs2 = 0#32
    · cases (execDiv_zero _ _ hm hz).symm.trans h
      cases hgoes
    · exact writeAndAdvance_pc ((execDiv_nonzero _ _ hm hz).symm.trans h)
  · cases (execDiv_absent _ _ _ hm).symm.trans h
    cases hgoes

end

/-- Settles O33, by the shape of each instruction. -/
theorem eachInstructionSetsPcOnce : Obligations.EachInstructionSetsPcOnce := by
  intro i s t _ h hgoes
  cases i with
  | add | sub | addi | ori | andi | lui | auipc => exact writeAndAdvance_pc h
  | mul => exact execMul_pc h hgoes
  | div => exact execDiv_pc h hgoes
  | lb | lh | lw => exact loadSigned_pc h
  | sb | sh | sw => exact storeLow_pc h
  | jal | jalr => exact linkAndJump_pc h
  | beq | bne | blt | bge | bltu | bgeu => exact ⟨_, rfl, branchIf_pc h⟩

/-- A relative transfer goes to its offset, or falls through if it is a branch. -/
theorem exec_relative_pc {i : Instr} {s t : State} {imm : Word} (hoffset : relativeOffset i = some imm)
    (h : exec i s = .next t) : t.pc = s.pc + imm ∨ isBranch i = true ∧ t.pc = s.pc + 1#32 := by
  cases i with
  | jal =>
    cases hoffset
    exact .inl (linkAndJump_pc h)
  | beq | bne | blt | bge | bltu | bgeu =>
    cases hoffset
    exact (branchIf_pc h).imp_right fun hpc => ⟨rfl, hpc⟩
  | add | sub | mul | div | addi | ori | andi | lui | auipc | jalr | lb | lh | lw | sb | sh | sw => cases hoffset

/-- The offsets a word can spell are even. -/
theorem even_relativeOffset {i : Instr} {imm : Word} (hw : i.wellFormed = true) (hoffset : relativeOffset i = some imm) :
    imm.toNat % 2 = 0 := by
  have heven : imm.getLsbD 0 = false := by
    cases i with
    | jal =>
      cases hoffset
      exact getLsbD_zero_of_fitsImmJ hw
    | beq | bne | blt | bge | bltu | bgeu =>
      cases hoffset
      exact getLsbD_zero_of_fitsImmB hw
    | add | sub | mul | div | addi | ori | andi | lui | auipc | jalr | lb | lh | lw | sb | sh | sw => cases hoffset
  simpa [BitVec.getLsbD, Nat.testBit_zero] using heven

/-- Settles O34: the decoded offset is even, and `pc` moves by it unless a branch falls through. -/
theorem relativeTransfersKeepParity : Obligations.RelativeTransfersKeepParity := by
  intro s t i hi hrelative h
  obtain ⟨imm, hoffset⟩ := Option.ne_none_iff_exists'.1 hrelative
  refine (exec_relative_pc hoffset ((step_of_aboutToExecute hi).symm.trans h)).imp_left fun hpc => ?_
  obtain ⟨_, _, w, _, hdecode⟩ := hi
  have hmove : t.pc - s.pc = imm := by rw [hpc, BitVec.add_comm, BitVec.add_sub_cancel]
  rw [hmove]
  exact even_relativeOffset (wellFormed_of_decodes (decodes_of_decode hdecode)) hoffset

/-! Runs that never end: a transfer to itself is a fixed point of the step. -/

theorem setPc_add_zero (s : State) : s.setPc (s.pc + 0#32) = s := setPc_eq_self (BitVec.add_zero s.pc).symm

theorem exec_jal_zero (s : State) : exec (.jal 0#5 0#32) s = .next s :=
  congrArg Host.Outcome.next (setPc_add_zero s)

theorem branchIf_zero_taken {taken : Bool} (s : State) (h : taken = true) : branchIf taken 0#32 s = .next s := by
  rw [branchIf_eq, if_pos h, setPc_add_zero]

/-- Settles O59: each of the seven transfers answers the state it started from. -/
theorem zeroOffsetTransfersNeverEnd : Obligations.ZeroOffsetTransfersNeverEnd := by
  intro s i hi htransfer
  have hexec : exec i s = .next s := by
    rcases htransfer with
      rfl | ⟨rs1, rs2, ⟨rfl, h⟩ | ⟨rfl, h⟩ | ⟨rfl, h⟩ | ⟨rfl, h⟩ | ⟨rfl, h⟩ | ⟨rfl, h⟩⟩
    · exact exec_jal_zero s
    · exact branchIf_zero_taken s (by simp [condEq, h])
    · exact branchIf_zero_taken s (by simp [condEq, h])
    · exact branchIf_zero_taken s (by simp [condLtSigned, h])
    · exact branchIf_zero_taken s (by simp [condLtSigned, h])
    · exact branchIf_zero_taken s (by simpa [condLtUnsigned] using h)
    · exact branchIf_zero_taken s (by simpa [condLtUnsigned] using h)
  exact run_of_fixed ((step_of_aboutToExecute hi).trans hexec)

/-- Settles O35: the word is `jal x0, 0`, so O59 applies. -/
theorem jumpToItselfNeverEnds : Obligations.JumpToItselfNeverEnds := by
  intro s hrun hbound hfetch
  have hdecode : decode s.config.hasMulDiv 0x0000006F#32 = .ok (.jal 0#5 0#32) := decode_encode _ (.jal 0#5 0#32) rfl rfl
  exact zeroOffsetTransfersNeverEnd s _ ⟨hrun, hbound, _, hfetch, hdecode⟩ (.inl rfl)

end Sys2Proof.Machine
end

section
/-! PROOFS. The host (spec 50): what the load places, what is refused, and that a reset allows one load and one run. Settles O36,
O38, O39 and O58. -/

namespace Sys2Proof.Machine

/-! The cells after a load. -/

theorem cellAt_loadWords_outside (ws : List Word) (m : Memory) (a b : Nat) (h : b < a ∨ a + ws.length ≤ b) :
    cellAt (loadWords m a ws) b = cellAt m b := by
  induction ws generalizing m a with
  | nil => rfl
  | cons w ws ih =>
    simp only [List.length_cons] at h
    rw [loadWords, ih _ _ (by omega), cellAt_putCell, if_neg (by omega)]

theorem cellAt_loadWords_inside (ws : List Word) (m : Memory) (a k : Nat) (h : k < ws.length) :
    cellAt (loadWords m a ws) (a + k) = ws[k] := by
  induction ws generalizing m a k with
  | nil => simp at h
  | cons w ws ih =>
    cases k with
    | zero =>
      rw [loadWords, cellAt_loadWords_outside _ _ _ _ (by omega), cellAt_putCell]
      simp
    | succ k =>
      have hk : k < ws.length := by simpa using h
      have hcell : a + (k + 1) = a + 1 + k := by omega
      rw [loadWords, hcell, ih _ _ k hk, List.getElem_cons_succ]

theorem hostLoad_accepted {s : State} {ws : List Word} (hidle : s.status = .idle) (hload : s.loaded = false)
    (hlength : ws.length ≤ s.config.memWords) : hostLoad ws s =
      .next (((s.setMem (loadWords s.mem 0 ws)).setCount (BitVec.ofNat 32 ws.length)).setLoaded true) := by
  simp [hostLoad, hidle, hload, Nat.not_lt.2 hlength]

/-- Settles O36, by induction on the program for the cells. -/
theorem loadPlacesTheProgram : Obligations.LoadPlacesTheProgram := by
  intro ws s hidle hload
  refine ⟨fun hlength => ⟨_, hostLoad_accepted hidle hload hlength, fun k hk => ?_, fun a ha => ?_, rfl, rfl, rfl, rfl, rfl, rfl⟩,
    fun hlong => ?_⟩
  · simpa using cellAt_loadWords_inside ws s.mem 0 k hk
  · exact cellAt_loadWords_outside ws s.mem 0 a (by omega)
  · simp [hostLoad, hidle, hload, hlong]

/-! What is refused. -/

theorem hostLoad_of_running {s : State} (h : s.status = .running) (ws : List Word) :
    hostLoad ws s = .refused .hostWhileRunning := by
  simp [hostLoad, h]

theorem hostStart_of_running {s : State} (h : s.status = .running) : hostStart s = .refused .hostWhileRunning := by
  simp [hostStart, h]

theorem hostLoad_of_loaded {s : State} (hidle : s.status = .idle) (hload : s.loaded = true) (ws : List Word) :
    hostLoad ws s = .refused .hostOncePerReset := by
  simp [hostLoad, hidle, hload]

theorem hostLoad_of_ended {s : State} (h : s.status = .halted ∨ ∃ f, s.status = .faulted f) (ws : List Word) :
    hostLoad ws s = .refused .hostOncePerReset := by
  rcases h with h | ⟨f, h⟩ <;> simp [hostLoad, h]

theorem hostStart_of_ended {s : State} (h : s.status = .halted ∨ ∃ f, s.status = .faulted f) :
    hostStart s = .refused .hostOncePerReset := by
  rcases h with h | ⟨f, h⟩ <;> simp [hostStart, h]

/-- Settles O38: the guards of each host operation in the order of the statement. -/
theorem hostOperationsOutsideTheirDomainAreRefused : Obligations.HostOperationsOutsideTheirDomainAreRefused := by
  refine fun s => ⟨fun hrun => ?_, fun hfree => ⟨fun n hn => ?_, fun a ha => ?_⟩, hostLoad_of_loaded, fun hended => ?_⟩
  · have hlocked : hostLocked s = true := decide_eq_true hrun
    refine ⟨hostLoad_of_running hrun, ?_, ?_, ?_, ?_, hostStart_of_running hrun⟩
    · simp [hostReadRegister, hlocked]
    · simp [hostWriteRegister, hlocked]
    · simp [hostReadMemory, hlocked]
    · simp [hostWriteMemory, hlocked]
  · simp [hostReadRegister, hostWriteRegister, hostLocked, hfree, Nat.not_lt.2 hn]
  · simp [hostReadMemory, hostWriteMemory, hostLocked, hfree, Nat.not_lt.2 ha]
  · exact ⟨hostLoad_of_ended hended, hostStart_of_ended hended⟩

/-- A machine that is not idle is running or has ended, and refuses both a load and a start. -/
theorem refused_of_not_idle {s : State} (h : s.status ≠ .idle) :
    (∀ ws, ∃ r, hostLoad ws s = .refused r) ∧ ∃ r, hostStart s = .refused r := by
  cases hs : s.status with
  | idle => exact absurd hs h
  | running => exact ⟨fun ws => ⟨_, hostLoad_of_running hs ws⟩, _, hostStart_of_running hs⟩
  | halted => exact ⟨fun ws => ⟨_, hostLoad_of_ended (.inl hs) ws⟩, _, hostStart_of_ended (.inl hs)⟩
  | faulted f => exact ⟨fun ws => ⟨_, hostLoad_of_ended (.inr ⟨f, hs⟩) ws⟩, _, hostStart_of_ended (.inr ⟨f, hs⟩)⟩

theorem hostExecute_not_idle {fuel : Nat} {s t : State} (h : hostExecute fuel s = .next t) : t.status ≠ .idle := by
  obtain ⟨_, hrun⟩ := hostExecute_next h
  exact runSteps_keeps (P := fun u => u.status ≠ .idle) (fun _ _ _ => step_not_idle) fuel (by simp) hrun

/-- Settles O58: a load records itself, which no poke undoes, and no step leads back to Idle. -/
theorem oneLoadAndOneRunPerReset : Obligations.OneLoadAndOneRunPerReset := by
  refine fun s => ⟨fun ws t h => ?_, fun hidle => ?_, fun fuel t h => refused_of_not_idle (hostExecute_not_idle h)⟩
  · obtain ⟨hidle, _, _, rfl⟩ := hostLoad_next h
    refine ⟨hostLoad_of_loaded hidle rfl, fun n v u hu => ?_, fun a v u hu => ?_⟩
    · obtain ⟨_, _, rfl⟩ := hostWriteRegister_next hu
      exact hostLoad_of_loaded (by simpa using hidle) (by simp)
    · obtain ⟨_, _, rfl⟩ := hostWriteMemory_next hu
      exact hostLoad_of_loaded hidle rfl
  · simp [hostStart, hidle, State.setStatus]

/-- Settles O39: the bound 0 is reached before the first fetch. -/
theorem executeWithNothingLoadedHalts : Obligations.ExecuteWithNothingLoadedHalts := by
  intro c fuel
  have hstep : step ((hostReset c).setStatus .running) = .next ((hostReset c).setStatus .halted) :=
    step_of_bound_reached rfl rfl
  rw [hostExecute_of_idle rfl, runSteps_succ rfl hstep]
  exact runSteps_of_not_running (by simp) fuel

end Sys2Proof.Machine
end

section
/-! PROOFS. The instructions one by one (spec 41 to 48): the word of each decodes by O18, since it is what `encode` gives, and the
shared operation it is made of has the effect the rule states. Settles O41 to O57. -/

namespace Sys2Proof

/-! The words, as encodings of instructions whose immediate is written as its format's field. -/

/-- The bits of a field are recovered from its sign extension. -/
theorem setWidth_signExtend {n : Nat} (hn : n ≤ 32) (x : BitVec n) : (x.signExtend 32).setWidth n = x :=
  BitVec.eq_of_getLsbD_eq fun k hk => by
    simp only [BitVec.getLsbD_setWidth, BitVec.getLsbD_signExtend, hk, hk.trans_le hn, decide_true, Bool.true_and, if_true]

theorem extractLsb'_append_zeros (x : BitVec 20) : (x ++ 0#12).extractLsb' 12 20 = x := BitVec.extractLsb'_append_eq_left

/-- The word an instruction encodes to decodes to it. -/
theorem decode_of_encode_eq {m : Bool} {i : Instr} {w : Word} (he : encode i = w) (hw : i.wellFormed = true)
    (hp : i.present m = true) : decode m w = .ok i := by
  rw [← he]
  exact decode_encode m i hw hp

section
variable {m : Bool} {imm : BitVec 12} {f : BitVec 20}

theorem decode_of_formatI {i : Instr} {rs1 : RegIdx} {f3 : BitVec 3} {rd : RegIdx} {op : BitVec 7}
    (he : encode i = formatI ((imm.signExtend 32).setWidth 12) rs1 f3 rd op)
    (hw : i.wellFormed = fitsImm12 (imm.signExtend 32)) (hp : i.present m = true) :
    decode m (formatI imm rs1 f3 rd op) = .ok i :=
  decode_of_encode_eq (he.trans (by rw [setWidth_signExtend (by decide)])) (hw.trans (fitsImm12_signExtend imm)) hp

theorem decode_of_formatS {i : Instr} {rs2 rs1 : RegIdx} {f3 : BitVec 3} {op : BitVec 7}
    (he : encode i = formatS ((imm.signExtend 32).setWidth 12) rs2 rs1 f3 op)
    (hw : i.wellFormed = fitsImm12 (imm.signExtend 32)) (hp : i.present m = true) :
    decode m (formatS imm rs2 rs1 f3 op) = .ok i :=
  decode_of_encode_eq (he.trans (by rw [setWidth_signExtend (by decide)])) (hw.trans (fitsImm12_signExtend imm)) hp

theorem decode_of_formatB {i : Instr} {rs2 rs1 : RegIdx} {f3 : BitVec 3} {op : BitVec 7}
    (he : encode i = formatB (((imm ++ 0#1).signExtend 32).setWidth 13) rs2 rs1 f3 op)
    (hw : i.wellFormed = fitsImmB ((imm ++ 0#1).signExtend 32)) (hp : i.present m = true) :
    decode m (formatB (imm ++ 0#1) rs2 rs1 f3 op) = .ok i :=
  decode_of_encode_eq (he.trans (by rw [setWidth_signExtend (by decide)])) (hw.trans (fitsImmB_signExtend imm)) hp

theorem decode_of_formatU {i : Instr} {rd : RegIdx} {op : BitVec 7}
    (he : encode i = formatU ((f ++ 0#12).extractLsb' 12 20) rd op)
    (hw : i.wellFormed = fitsImmU (f ++ 0#12)) (hp : i.present m = true) : decode m (formatU f rd op) = .ok i :=
  decode_of_encode_eq (he.trans (by rw [extractLsb'_append_zeros])) (hw.trans (fitsImmU_append f)) hp

theorem decode_of_formatJ {i : Instr} {rd : RegIdx} {op : BitVec 7}
    (he : encode i = formatJ (((f ++ 0#1).signExtend 32).setWidth 21) rd op)
    (hw : i.wellFormed = fitsImmJ ((f ++ 0#1).signExtend 32)) (hp : i.present m = true) :
    decode m (formatJ (f ++ 0#1) rd op) = .ok i :=
  decode_of_encode_eq (he.trans (by rw [setWidth_signExtend (by decide)])) (hw.trans (fitsImmJ_signExtend f)) hp

end

theorem decode_jalr_error (m : Bool) (imm : BitVec 12) (rs1 : RegIdx) {f3 : BitVec 3} (rd : RegIdx) (h : f3 ≠ 0b000#3) :
    decode m (formatI imm rs1 f3 rd 0b1100111#7) = .error ⟨.funct3, f3.toNat⟩ := by
  simp [decode, decodeJalr, funct3Fault, h]

end Sys2Proof

namespace Sys2Proof.Machine

/-! The exact results, of which the low 32 bits are kept (D6, log 8). -/

section
variable (a b : Word)

theorem ofInt_toInt_add : BitVec.ofInt 32 (a.toInt + b.toInt) = a + b :=
  BitVec.eq_of_toInt_eq (by rw [BitVec.toInt_ofInt, BitVec.toInt_add])

theorem ofInt_toInt_sub : BitVec.ofInt 32 (a.toInt - b.toInt) = a - b :=
  BitVec.eq_of_toInt_eq (by rw [BitVec.toInt_ofInt, BitVec.toInt_sub])

theorem ofInt_toInt_mul : BitVec.ofInt 32 (a.toInt * b.toInt) = a * b :=
  BitVec.eq_of_toInt_eq (by rw [BitVec.toInt_ofInt, BitVec.toInt_mul])

/-- The zero-extended low bits as a mask (spec 45 R161, R162). -/
theorem zext_half_eq_and : zext 16 a = a &&& 0x0000FFFF#32 :=
  BitVec.eq_of_toNat_eq ((toNat_zext .half a).trans (Nat.and_two_pow_sub_one_eq_mod a.toNat 16).symm)

theorem zext_byte_eq_and : zext 8 a = a &&& 0x000000FF#32 :=
  BitVec.eq_of_toNat_eq ((toNat_zext .byte a).trans (Nat.and_two_pow_sub_one_eq_mod a.toNat 8).symm)

end

/-! The effect of each shared operation. -/

section
variable {s : State}

theorem writeAndAdvance_only (rd : RegIdx) (s : State) {v x : Word} (hv : x = v) :
    ∃ t, writeAndAdvance rd v s = .next t ∧ OnlyRegAndPc s t rd x (s.pc + 1#32) :=
  ⟨_, writeAndAdvance_eq rd v s, hv ▸ writeReg_setPc_only s rd v _⟩

theorem linkAndJump_only (rd : RegIdx) (p : Word) (s : State) :
    ∃ t, linkAndJump rd p s = .next t ∧ OnlyRegAndPc s t rd (s.pc + 1#32) p :=
  ⟨_, linkAndJump_eq rd p s, writeReg_setPc_only s rd _ p⟩

theorem branchIf_only {taken : Bool} {P : Prop} [Decidable P] (h : taken = true ↔ P) (imm : Word) (s : State) :
    ∃ t, branchIf taken imm s = .next t ∧ OnlyPc s t (if P then s.pc + imm else s.pc + 1#32) := by
  refine ⟨_, branchIf_eq taken imm s, ?_⟩
  simp only [h]
  exact setPc_only s _

theorem loadSigned_only (n : Width) (rd : RegIdx) {rs1 : RegIdx} {imm x : Word} (hin : InArray s (effectiveAddress s rs1 imm))
    (hx : x = sext n.bits (cellOf s (s.readReg rs1 + imm))) :
    ∃ t, loadSigned n rd rs1 imm s = .next t ∧ OnlyRegAndPc s t rd x (s.pc + 1#32) :=
  ⟨_, loadSigned_inside n rd rs1 imm s hin, hx ▸ writeReg_setPc_only s rd _ _⟩

theorem storeLow_only (n : Width) {rs2 rs1 : RegIdx} {imm x : Word} (hin : InArray s (effectiveAddress s rs1 imm))
    (hx : x = zext n.bits (s.readReg rs2)) :
    ∃ t, storeLow n rs2 rs1 imm s = .next t ∧ OnlyCellAndPc s t (s.readReg rs1 + imm).toInt.toNat x (s.pc + 1#32) :=
  ⟨_, storeLow_inside n rs2 rs1 imm s hin, hx ▸ putCell_setPc_only s _ _ _⟩

end

/-! The conditions of the branches. -/

section
variable (a b : Word)

theorem condEq_iff : condEq a b = true ↔ a = b := by simp [condEq]

theorem not_condEq_iff : (!condEq a b) = true ↔ a ≠ b := by simp [condEq]

theorem condLtSigned_iff : condLtSigned a b = true ↔ a.toInt < b.toInt := by simp [condLtSigned]

theorem not_condLtSigned_iff : (!condLtSigned a b) = true ↔ b.toInt ≤ a.toInt := by simp [condLtSigned]

theorem condLtUnsigned_iff : condLtUnsigned a b = true ↔ a.toNat < b.toNat := decide_eq_true_iff

theorem not_condLtUnsigned_iff : (!condLtUnsigned a b) = true ↔ b.toNat ≤ a.toNat := by
  rw [condLtUnsigned, Bool.not_eq_true', decide_eq_false_iff_not, Nat.not_lt]

end

/-- Settles O41: O18 for the word, and the register write of the exact sum's low 32 bits. -/
theorem addWritesTheWrappedSum : Obligations.AddWritesTheWrappedSum := fun rd rs1 rs2 s =>
  ⟨fun m => decode_encode m (.add rd rs1 rs2) rfl rfl, writeAndAdvance_only rd s (ofInt_toInt_add _ _)⟩

/-- Settles O42: O18 for the word, and the register write of the exact difference's low 32 bits. -/
theorem subWritesTheWrappedDifference : Obligations.SubWritesTheWrappedDifference := fun rd rs1 rs2 s =>
  ⟨fun m => decode_encode m (.sub rd rs1 rs2) rfl rfl, writeAndAdvance_only rd s (ofInt_toInt_sub _ _)⟩

/-- Settles O43: with the option MUL is a register write. -/
theorem mulWritesTheWrappedProduct : Obligations.MulWritesTheWrappedProduct := by
  intro rd rs1 rs2 s hm
  refine ⟨decode_encode true (.mul rd rs1 rs2) rfl rfl, ?_⟩
  rw [exec, execMul_present rd rs1 rs2 hm]
  exact writeAndAdvance_only rd s (ofInt_toInt_mul _ _)

/-- Settles O44: with the option DIV is decided by its divisor. -/
theorem divWritesTheQuotientOrFaults : Obligations.DivWritesTheQuotientOrFaults := by
  intro rd rs1 rs2 s hm
  refine ⟨decode_encode true (.div rd rs1 rs2) rfl rfl, fun hz => ?_, execDiv_zero rd rs1 hm⟩
  rw [exec, execDiv_nonzero rd rs1 hm hz]
  exact writeAndAdvance_only rd s rfl

/-- Settles O46: of a whole cell the low 32 bits are the cell. -/
theorem lwLoadsTheWholeCell : Obligations.LwLoadsTheWholeCell := fun rd _ _ =>
  ⟨fun _ _ => decode_of_formatI rfl rfl rfl, fun _ =>
    ⟨fun hin => loadSigned_only .word rd hin (sext_word _).symm, fun hout => loadSigned_outside _ _ _ _ _ hout⟩⟩

/-- Settles O47: the load reads the cell and keeps its low bits. -/
theorem lhAndLbLoadTheLowBitsSignExtended : Obligations.LhAndLbLoadTheLowBitsSignExtended := fun rd _ _ =>
  ⟨fun _ _ => ⟨decode_of_formatI rfl rfl rfl, decode_of_formatI rfl rfl rfl⟩, fun _ =>
    ⟨fun hin => ⟨loadSigned_only .half rd hin rfl, loadSigned_only .byte rd hin rfl⟩,
      fun hout => ⟨loadSigned_outside _ _ _ _ _ hout, loadSigned_outside _ _ _ _ _ hout⟩⟩⟩

/-- Settles O48: a register write of the exact sum's low 32 bits. -/
theorem addiAddsTheImmediate : Obligations.AddiAddsTheImmediate := fun rd _ s =>
  ⟨fun _ _ => decode_of_formatI rfl rfl rfl, fun _ => writeAndAdvance_only rd s (ofInt_toInt_add _ _)⟩

/-- Settles O49: two register writes; the immediate is extended by the decoder. -/
theorem andiAndOriCombineBitwise : Obligations.AndiAndOriCombineBitwise := fun rd _ s =>
  ⟨fun _ _ => ⟨decode_of_formatI rfl rfl rfl, decode_of_formatI rfl rfl rfl⟩, fun _ =>
    ⟨writeAndAdvance_only rd s rfl, writeAndAdvance_only rd s rfl⟩⟩

/-- Settles O50: of a register the low 32 bits are the register. -/
theorem swStoresTheWholeRegister : Obligations.SwStoresTheWholeRegister := fun _ _ _ =>
  ⟨fun _ _ => decode_of_formatS rfl rfl rfl, fun _ =>
    ⟨fun hin => storeLow_only .word hin (zext_word _).symm, fun hout => storeLow_outside _ _ _ _ _ hout⟩⟩

/-- Settles O51: the zero-extended low bits are the register under the mask. -/
theorem shAndSbStoreTheLowBitsZeroExtended : Obligations.ShAndSbStoreTheLowBitsZeroExtended := fun _ _ _ =>
  ⟨fun _ _ => ⟨decode_of_formatS rfl rfl rfl, decode_of_formatS rfl rfl rfl⟩, fun _ =>
    ⟨fun hin => ⟨storeLow_only .half hin (zext_half_eq_and _).symm, storeLow_only .byte hin (zext_byte_eq_and _).symm⟩,
      fun hout => ⟨storeLow_outside _ _ _ _ _ hout, storeLow_outside _ _ _ _ _ hout⟩⟩⟩

/-- Settles O52: two register writes, the second reading the old `pc`. -/
theorem luiAndAuipcWriteTheUpperImmediate : Obligations.LuiAndAuipcWriteTheUpperImmediate := fun rd s =>
  ⟨fun _ _ => ⟨decode_of_formatU rfl rfl rfl, decode_of_formatU rfl rfl rfl⟩, fun _ =>
    ⟨writeAndAdvance_only rd s rfl, writeAndAdvance_only rd s rfl⟩⟩

/-- Settles O53: link and target are both computed from the old `pc`. -/
theorem jalLinksAndJumpsRelative : Obligations.JalLinksAndJumpsRelative := fun rd s =>
  ⟨fun _ _ => decode_of_formatJ rfl rfl rfl, fun _ => linkAndJump_only rd _ s⟩

/-- Settles O54: as JAL with its own target; the decoder tests `funct3`. -/
theorem jalrLinksAndJumpsAbsolute : Obligations.JalrLinksAndJumpsAbsolute := fun rd rs1 s =>
  ⟨fun m imm => ⟨decode_of_formatI rfl rfl rfl, fun _ h => decode_jalr_error m imm rs1 rd h⟩, fun _ =>
    linkAndJump_only rd _ s⟩

/-- Settles O55: the conditions are equality and its negation. -/
theorem beqAndBneBranchOnEquality : Obligations.BeqAndBneBranchOnEquality := fun _ _ s =>
  ⟨fun _ _ => ⟨decode_of_formatB rfl rfl rfl, decode_of_formatB rfl rfl rfl⟩, fun imm =>
    ⟨branchIf_only (condEq_iff _ _) imm s, branchIf_only (not_condEq_iff _ _) imm s⟩⟩

/-- Settles O56: the conditions are the signed order and its negation. -/
theorem bltAndBgeBranchOnSignedOrder : Obligations.BltAndBgeBranchOnSignedOrder := fun _ _ s =>
  ⟨fun _ _ => ⟨decode_of_formatB rfl rfl rfl, decode_of_formatB rfl rfl rfl⟩, fun imm =>
    ⟨branchIf_only (condLtSigned_iff _ _) imm s, branchIf_only (not_condLtSigned_iff _ _) imm s⟩⟩

/-- Settles O57: the conditions are the unsigned order and its negation. -/
theorem bltuAndBgeuBranchOnUnsignedOrder : Obligations.BltuAndBgeuBranchOnUnsignedOrder := fun _ _ s =>
  ⟨fun _ _ => ⟨decode_of_formatB rfl rfl rfl, decode_of_formatB rfl rfl rfl⟩, fun imm =>
    ⟨branchIf_only (condLtUnsigned_iff _ _) imm s, branchIf_only (not_condLtUnsigned_iff _ _) imm s⟩⟩

/-! The quotient (spec 42 R146). -/

/-- Outside the overflow case the quotient fits in 32 bits and is exact. -/
theorem toInt_sdiv {a b : Word} (h : ¬ (a = 0x80000000#32 ∧ b = 0xFFFFFFFF#32)) :
    (sdiv a b).toInt = a.toInt.tdiv b.toInt := by
  have hfits : (a.sdiv b).toInt = a.toInt.tdiv b.toInt := BitVec.toInt_sdiv_of_ne_or_ne a b (not_and_or.1 h)
  rw [sdiv, if_neg h, BitVec.toInt_ofInt, ← BitVec.toInt_sdiv, hfits]

/-- The remainder the statement speaks of is that of division toward zero. -/
theorem remainder_eq_tmod {a b : Word} (h : ¬ (a = 0x80000000#32 ∧ b = 0xFFFFFFFF#32)) :
    a.toInt - (sdiv a b).toInt * b.toInt = a.toInt.tmod b.toInt := by
  rw [toInt_sdiv h, Int.tmod_def, Int.mul_comm]

/-- Settles O45: the remainder is `Int.tmod`, smaller than the divisor and of the dividend's sign. -/
theorem quotientRoundsTowardZero : Obligations.QuotientRoundsTowardZero := by
  refine ⟨fun a b hb h => ?_, by decide⟩
  have hdivisor : 0 < b.toInt.natAbs := Int.natAbs_pos.2 fun e => hb (BitVec.eq_of_toInt_eq e)
  rw [remainder_eq_tmod h, Int.natAbs_tmod]
  refine ⟨Nat.mod_lt _ hdivisor, Int.tmod_nonneg _, fun hneg => ?_⟩
  have hopposite : 0 ≤ (-a.toInt).tmod b.toInt := Int.tmod_nonneg _ (by omega)
  rw [Int.neg_tmod] at hopposite
  omega

end Sys2Proof.Machine
end
